-- ==== Sys2Proof/Word.lean ====
section
/-! DEFINITION. The word types of the CHIP-8 core and the fixed shapes built from them
(00_scope.md R7, R11). All values are unsigned; nothing is ever sign-extended. -/

namespace Sys2Proof

/-- One byte of memory, one general register, one timer (R7). -/
abbrev Byte := BitVec 8

/-- A 12-bit byte address: the type of `PC`, `I` and a stack entry. Arithmetic on it is mod 4096 (R65). -/
abbrev Addr := BitVec 12

/-- A 16-bit opcode: the type of `IR` and `DIAG` (R41, R42). -/
abbrev Word := BitVec 16

/-- The index of a general register, from a 4-bit field of the opcode (R20, R91). -/
abbrev Reg := Fin 16

/-- The number of a logical key, 0 to 15 (R7). -/
abbrev Key := Fin 16

/-- The row count of `DRW` or the line count of `SCD`, 0 to 15 (R93). -/
abbrev Count := Fin 16

/-- A display row, 0 to 31 (R32). -/
abbrev Row := Fin 32

/-- A display column, 0 to 63 (R32). -/
abbrev Col := Fin 64

/-- The display bitmap: 32 rows of 64 one-bit pixels, `true` = set (R32). -/
abbrev Display := Vector (Vector Bool 64) 32

/-- The auxiliary bank: 8 entries of 8 bits (R30). -/
abbrev RplBank := Vector Byte 8

end Sys2Proof
end

