-- ==== Sys2Proof/Syntax.lean ====
section
/-! DEFINITION. The instructions of the opcode table (30_encoding.md R95), one constructor per row, and the
events of the block's boundary (00_scope.md R9, R10). -/

namespace Sys2Proof

/-- The 50 instructions of the opcode table, in the table's order: 43 implemented ones and the 7 unsupported
extensions (R98). Operands: `x`, `y` register indices, `kk` an unsigned byte, `nnn` an absolute address,
`n` a count (R91, R93). -/
inductive Instr where
  | cls
  | ret
  | jp (nnn : Addr)
  | call (nnn : Addr)
  | jpV0 (nnn : Addr)
  | seVxKk (x : Reg) (kk : Byte)
  | sneVxKk (x : Reg) (kk : Byte)
  | seVxVy (x y : Reg)
  | sgtVxVy (x y : Reg)
  | sltVxVy (x y : Reg)
  | sne5VxVy (x y : Reg)
  | sneVxVy (x y : Reg)
  | ldVxKk (x : Reg) (kk : Byte)
  | addVxKk (x : Reg) (kk : Byte)
  | ldVxVy (x y : Reg)
  | orVxVy (x y : Reg)
  | andVxVy (x y : Reg)
  | xorVxVy (x y : Reg)
  | addVxVy (x y : Reg)
  | subVxVy (x y : Reg)
  | shrVx (x : Reg)
  | subnVxVy (x y : Reg)
  | shlVx (x : Reg)
  | mulVxVy (x y : Reg)
  | divVxVy (x y : Reg)
  | bcdVxVy (x y : Reg)
  | ldI (nnn : Addr)
  | addIVx (x : Reg)
  | ldFVx (x : Reg)
  | ldHfVx (x : Reg)
  | ldBVx (x : Reg)
  | ldMemVx (x : Reg)
  | ldVxMem (x : Reg)
  | ldRVx (x : Reg)
  | ldVxR (x : Reg)
  | rndVxKk (x : Reg) (kk : Byte)
  | drwVxVyN (x y : Reg) (n : Count)
  | skpVx (x : Reg)
  | sknpVx (x : Reg)
  | ldVxDt (x : Reg)
  | ldVxK (x : Reg)
  | ldDtVx (x : Reg)
  | ldStVx (x : Reg)
  | scd (n : Count)
  | scr
  | scl
  | exit
  | low
  | high
  | ldAVx (x : Reg)
  deriving DecidableEq, Repr

/-- What the host drives on the input ports while it schedules a step (R9): the key lines, bit `k` for the
logical key `k`; the random byte; the halt request. -/
structure Pins where
  keys : BitVec 16
  rnd : Byte
  haltReq : Bool
  deriving DecidableEq, Repr, Inhabited

/-- One event at the block's boundary (R9, R10, R313). Each is atomic and lands between steps (R311). -/
inductive Event where
  /-- `step_en`: the host schedules one step, with these values on its ports. -/
  | step (pins : Pins)
  /-- One pulse of the timer tick. -/
  | tick
  /-- The wait-for-key answer: `key_valid` with this `key_code`. -/
  | key (code : Key)
  /-- `halt_req` at a step boundary with no step due. -/
  | halt
  /-- `rst`. -/
  | reset
  /-- `mem_load`: one byte of the program image. -/
  | load (addr : Addr) (data : Byte)
  deriving DecidableEq, Repr, Inhabited

/-- A program image: the bytes the host loads from 0x200 upward (R344). -/
abbrev Image := List Byte

/-- What the host and the tick source do, oldest event first (R313). -/
abbrev Schedule := List Event

end Sys2Proof
end

