-- ==== Sys2Proof/Config.lean ====
section
/-! DEFINITION. What an implementation fixes and what the spec leaves open (00_scope.md R8,
92_eei_decisions.md, "OPEN parameters"). An `opaque` constant has no body: nothing can be proved of its
value, so a claim about the model holds whatever the value is. -/

namespace Sys2Proof.Config

/-- `FONT_SMALL`: the 16 small glyphs, 5 bytes each, that reset loads at addresses 0 to 79.
PRESUMED (log 3): the spec's default table in 70_reset_and_hazards.md R342, which the spec itself marks as
general knowledge (D15). -/
def fontSmall : List Byte :=
  [0xF0, 0x90, 0x90, 0x90, 0xF0,  0x20, 0x60, 0x20, 0x20, 0x70,
   0xF0, 0x10, 0xF0, 0x80, 0xF0,  0xF0, 0x10, 0xF0, 0x10, 0xF0] ++
  [0x90, 0x90, 0xF0, 0x10, 0x10,  0xF0, 0x80, 0xF0, 0x10, 0xF0,
   0xF0, 0x80, 0xF0, 0x90, 0xF0,  0xF0, 0x10, 0x20, 0x40, 0x40] ++
  [0xF0, 0x90, 0xF0, 0x90, 0xF0,  0xF0, 0x90, 0xF0, 0x10, 0xF0,
   0xF0, 0x90, 0xF0, 0x90, 0x90,  0xE0, 0x90, 0xE0, 0x90, 0xE0] ++
  [0xF0, 0x80, 0x80, 0x80, 0xF0,  0xE0, 0x90, 0x90, 0x90, 0xE0,
   0xF0, 0x80, 0xF0, 0x80, 0xF0,  0xF0, 0x80, 0xF0, 0x80, 0x80]

/-- Whether the large font has 16 glyphs and not 10: the open half of `NLARGE` (R8, R343; log 4). -/
opaque hasSixteenLargeGlyphs : Bool

/-- `NLARGE`: how many large glyphs reset loads, 10 or 16 (R8). -/
def nLarge : Nat := bif hasSixteenLargeGlyphs then 16 else 10

/-- `FONT_LARGE`: the byte at this offset from address 80 (R8, R343; log 4). Only offsets below
`10 * nLarge` are used. -/
opaque fontLarge : Nat → Byte

/-- `DIV0`: the quotient and the remainder `DIV` writes when the divisor is 0, as a function of the
dividend (R8, R191, D13; log 5). -/
opaque div0 : Byte → Byte × Byte

/-- `RPL_RESET`: the auxiliary bank after reset, by the number of the draw and by what the bank held before, so
that a bank that survives reset is one of the cases (R30, U12; log 2). -/
opaque rplReset : Nat → RplBank → RplBank

/-- `DISP_RESET`: the display after reset, by the number of the draw and by what it showed before (R32, U12;
log 2). -/
opaque dispReset : Nat → Display → Display

/-- `IR` after reset, by the number of the draw and by what it held before (R42, R46; log 2). -/
opaque irReset : Nat → Word → Word

/-- What the host and the tick source do next when the model's list of events says nothing: any event, with any
port values, any key and any halt request, by the number of the draw (R8, R313, U9; log 6). -/
opaque hostEvent : Nat → Event

/-- The 16 key lines where nothing says what the host drives on them (R8, R323; log 7). -/
opaque keyLines : Nat → BitVec 16

/-- The byte on the port `rnd` where nothing says what the host drives on it (R8, R231, U5; log 7). -/
opaque rndByte : Nat → Byte

end Sys2Proof.Config
end

