-- ==== Sys2Proof/Machine/Flags.lean ====
section
/-! DEFINITION. Every value an instruction writes to `VF` as a side effect, and the result it belongs to
(10_state.md R33, 42_alu.md R172, 43_ext_arith.md R193). Flags are computed from the exact values before
truncation. -/

namespace Sys2Proof.Machine

/-- A flag as the full byte that is written: 1 or 0 (R172). -/
def flagByte (c : Bool) : Byte := if c then 1 else 0

/-- The carry of `ADD Vx, Vy`: 1 iff the 9-bit sum exceeds 255 (R167). -/
def carryFlag (a b : Byte) : Byte := flagByte (decide (a.toNat + b.toNat > 255))

/-- The no-borrow flag of `minuend - subtrahend`: 1 iff the minuend is not less (R168, R170). -/
def noBorrowFlag (minuend subtrahend : Byte) : Byte := flagByte (decide (minuend.toNat ≥ subtrahend.toNat))

/-- The bit `SHR` shifts out: old bit 0 (R169). -/
def shrFlag (a : Byte) : Byte := flagByte (a.getLsbD 0)

/-- The bit `SHL` shifts out: old bit 7 (R171). -/
def shlFlag (a : Byte) : Byte := flagByte (a.getLsbD 7)

/-- The low byte of the 16-bit product (R190). -/
def mulLow (a b : Byte) : Byte := BitVec.ofNat 8 (a.toNat * b.toNat)

/-- The high byte of the 16-bit product, which `MUL` leaves in `VF` (R190). -/
def mulHigh (a b : Byte) : Byte := BitVec.ofNat 8 (a.toNat * b.toNat / 256)

/-- Quotient and remainder of `DIV`; for divisor 0 the configuration's `DIV0` of the dividend (R191, D13;
log 5). -/
def quotRem (a b : Byte) : Byte × Byte := if b = 0 then Config.div0 a else (a / b, a % b)

/-- The overflow of `ADD I, Vx`: 1 iff the 13-bit sum exceeds 0xFFF (R201, C7). -/
def indexOverflowFlag (i : Addr) (b : Byte) : Byte := flagByte (decide (i.toNat + b.toNat > 0xFFF))

/-- `I + V[X]`, mod 4096 (R201). -/
def indexSum (i : Addr) (b : Byte) : Addr := i + b.setWidth 12

end Sys2Proof.Machine
end

