-- ==== Sys2Proof/Decode.lean ====
section
/-! DEFINITION. The decoder, the encoder and the opcode table (30_encoding.md). The decoder follows the
dispatch of R94; the table `opcodeTable` is the map after R95 line by line and is not used by the decoder, so
that the two can be compared. Instruction words are big-endian in memory (20_memory.md R62). Where the spec
supplies opcode digits itself (D2, D4 to D9) the spec is followed: PRESUMED, log 1. -/

namespace Sys2Proof

/-! ## Fields of an opcode (R91, R92) -/

/-- The class, bits 15 to 12. -/
def fieldClass (w : Word) : Nat := w.toNat / 4096

/-- The field X, bits 11 to 8, as a register index. -/
def fieldX (w : Word) : Reg := Fin.ofNat 16 (w.toNat / 256)

/-- The field Y, bits 7 to 4, as a register index. -/
def fieldY (w : Word) : Reg := Fin.ofNat 16 (w.toNat / 16)

/-- The field N, bits 3 to 0. -/
def fieldN (w : Word) : Count := Fin.ofNat 16 w.toNat

/-- The field NN, bits 7 to 0: an unsigned immediate byte or a sub-opcode. -/
def fieldNN (w : Word) : Byte := BitVec.ofNat 8 w.toNat

/-- The field NNN, bits 11 to 0: an absolute address, never scaled (R93). -/
def fieldNNN (w : Word) : Addr := BitVec.ofNat 12 w.toNat

/-! ## Decoding (R94) -/

/-- Why a word is rejected. -/
inductive DecodeError where
  /-- The word matches no line of the opcode table (R97). Executing it raises InvalidOpcode(word) (R277). -/
  | invalidOpcode (word : Word)
  deriving DecidableEq, Repr

/-- Class 0: the whole word counts, X must be 0, and `00C0` to `00CF` are all `SCD n` (R94, D4). -/
def decodeClass0 (w : Word) : Except DecodeError Instr :=
  if w.toNat / 16 = 0x00C then .ok (.scd (fieldN w))
  else match w.toNat with
    | 0x00E0 => .ok .cls
    | 0x00EE => .ok .ret
    | 0x00FB => .ok .scr
    | 0x00FC => .ok .scl
    | 0x00FD => .ok .exit
    | 0x00FE => .ok .low
    | 0x00FF => .ok .high
    | _ => .error (.invalidOpcode w)

/-- Class 5 dispatches on N (R94; D5, D6). -/
def decodeClass5 (w : Word) : Except DecodeError Instr :=
  match w.toNat % 16 with
  | 0 => .ok (.seVxVy (fieldX w) (fieldY w))
  | 1 => .ok (.sgtVxVy (fieldX w) (fieldY w))
  | 2 => .ok (.sltVxVy (fieldX w) (fieldY w))
  | 3 => .ok (.sne5VxVy (fieldX w) (fieldY w))
  | _ => .error (.invalidOpcode w)

/-- Class 8 dispatches on N (R94; D5). The shifts do not use Y (R96). -/
def decodeClass8 (w : Word) : Except DecodeError Instr :=
  match w.toNat % 16 with
  | 0x0 => .ok (.ldVxVy (fieldX w) (fieldY w))
  | 0x1 => .ok (.orVxVy (fieldX w) (fieldY w))
  | 0x2 => .ok (.andVxVy (fieldX w) (fieldY w))
  | 0x3 => .ok (.xorVxVy (fieldX w) (fieldY w))
  | 0x4 => .ok (.addVxVy (fieldX w) (fieldY w))
  | 0x5 => .ok (.subVxVy (fieldX w) (fieldY w))
  | 0x6 => .ok (.shrVx (fieldX w))
  | 0x7 => .ok (.subnVxVy (fieldX w) (fieldY w))
  | 0xE => .ok (.shlVx (fieldX w))
  | _ => .error (.invalidOpcode w)

/-- Class 9 dispatches on N (R94; D5, D7). -/
def decodeClass9 (w : Word) : Except DecodeError Instr :=
  match w.toNat % 16 with
  | 0 => .ok (.sneVxVy (fieldX w) (fieldY w))
  | 1 => .ok (.mulVxVy (fieldX w) (fieldY w))
  | 2 => .ok (.divVxVy (fieldX w) (fieldY w))
  | 3 => .ok (.bcdVxVy (fieldX w) (fieldY w))
  | _ => .error (.invalidOpcode w)

/-- Class E dispatches on NN (R94). -/
def decodeClassE (w : Word) : Except DecodeError Instr :=
  match w.toNat % 256 with
  | 0x9E => .ok (.skpVx (fieldX w))
  | 0xA1 => .ok (.sknpVx (fieldX w))
  | _ => .error (.invalidOpcode w)

/-- Class F dispatches on NN (R94; D8, D9). -/
def decodeClassF (w : Word) : Except DecodeError Instr :=
  match w.toNat % 256 with
  | 0x07 => .ok (.ldVxDt (fieldX w))
  | 0x0A => .ok (.ldVxK (fieldX w))
  | 0x15 => .ok (.ldDtVx (fieldX w))
  | 0x18 => .ok (.ldStVx (fieldX w))
  | 0x1E => .ok (.addIVx (fieldX w))
  | 0x29 => .ok (.ldFVx (fieldX w))
  | 0x30 => .ok (.ldHfVx (fieldX w))
  | 0x33 => .ok (.ldBVx (fieldX w))
  | 0x55 => .ok (.ldMemVx (fieldX w))
  | 0x65 => .ok (.ldVxMem (fieldX w))
  | 0x75 => .ok (.ldRVx (fieldX w))
  | 0x85 => .ok (.ldVxR (fieldX w))
  | 0x94 => .ok (.ldAVx (fieldX w))
  | _ => .error (.invalidOpcode w)

/-- The decoder: a total function of the 16 bits alone, first by class, then by the low nibble or the low
byte where a class has several forms (R94). -/
def decode (w : Word) : Except DecodeError Instr :=
  match fieldClass w with
  | 0x0 => decodeClass0 w
  | 0x1 => .ok (.jp (fieldNNN w))
  | 0x2 => .ok (.call (fieldNNN w))
  | 0x3 => .ok (.seVxKk (fieldX w) (fieldNN w))
  | 0x4 => .ok (.sneVxKk (fieldX w) (fieldNN w))
  | 0x5 => decodeClass5 w
  | 0x6 => .ok (.ldVxKk (fieldX w) (fieldNN w))
  | 0x7 => .ok (.addVxKk (fieldX w) (fieldNN w))
  | 0x8 => decodeClass8 w
  | 0x9 => decodeClass9 w
  | 0xA => .ok (.ldI (fieldNNN w))
  | 0xB => .ok (.jpV0 (fieldNNN w))
  | 0xC => .ok (.rndVxKk (fieldX w) (fieldNN w))
  | 0xD => .ok (.drwVxVyN (fieldX w) (fieldY w) (fieldN w))
  | 0xE => decodeClassE w
  | 0xF => decodeClassF w
  | _ => .error (.invalidOpcode w)

/-- The opcode of two bytes: the byte at the lower address is the high byte (20_memory.md R62; D2). -/
def wordOfBytes (hi lo : Byte) : Word := BitVec.ofNat 16 (hi.toNat * 256 + lo.toNat)

/-- The byte of an opcode that lies at the lower address (R62). -/
def highByte (w : Word) : Byte := BitVec.ofNat 8 (w.toNat / 256)

/-- The byte of an opcode that lies at the next address (R62). -/
def lowByte (w : Word) : Byte := BitVec.ofNat 8 w.toNat

/-- The decoder on the two bytes of an instruction as they lie in memory (R62, R90). -/
def decodeBytes (hi lo : Byte) : Except DecodeError Instr := decode (wordOfBytes hi lo)

/-- What the decoder reads from an opcode-table word: `w` has `nbits` bits, bit 0 the least significant bit
of the 16-bit opcode; it is laid out high byte first and decoded. -/
def decodeTableWord (nbits w : Nat) : Option Instr :=
  let word := BitVec.ofNat 16 (w % 2 ^ nbits)
  match decodeBytes (highByte word) (lowByte word) with
  | .ok i => some i
  | .error _ => none

/-! ## Encoding (R92, R95) -/

/-- Format `W`: the whole word is fixed. -/
def encW (word : Nat) : Word := BitVec.ofNat 16 word

/-- Format `WN`: three fixed digits, then a count. -/
def encWN (top : Nat) (n : Count) : Word := BitVec.ofNat 16 (top * 16 + n)

/-- Format `A`: class, then an address. -/
def encA (cls : Nat) (nnn : Addr) : Word := BitVec.ofNat 16 (cls * 4096 + nnn.toNat)

/-- Format `XK`: class, register, byte. -/
def encXK (cls : Nat) (x : Reg) (kk : Byte) : Word := BitVec.ofNat 16 (cls * 4096 + x * 256 + kk.toNat)

/-- Format `XYN`: class, two registers, a sub-opcode or count. -/
def encXYN (cls : Nat) (x y : Reg) (n : Count) : Word :=
  BitVec.ofNat 16 (cls * 4096 + x * 256 + y * 16 + n)

/-- Format `XS`: class, register, sub-opcode byte. -/
def encXS (cls : Nat) (x : Reg) (sub : Nat) : Word := BitVec.ofNat 16 (cls * 4096 + x * 256 + sub)

/-- The word of an instruction (R95). `SHR` and `SHL` have 0 in the unused field Y (R100). -/
def encode : Instr → Word
  | .cls => encW 0x00E0
  | .ret => encW 0x00EE
  | .jp nnn => encA 0x1 nnn
  | .call nnn => encA 0x2 nnn
  | .jpV0 nnn => encA 0xB nnn
  | .seVxKk x kk => encXK 0x3 x kk
  | .sneVxKk x kk => encXK 0x4 x kk
  | .seVxVy x y => encXYN 0x5 x y 0
  | .sgtVxVy x y => encXYN 0x5 x y 1
  | .sltVxVy x y => encXYN 0x5 x y 2
  | .sne5VxVy x y => encXYN 0x5 x y 3
  | .sneVxVy x y => encXYN 0x9 x y 0
  | .ldVxKk x kk => encXK 0x6 x kk
  | .addVxKk x kk => encXK 0x7 x kk
  | .ldVxVy x y => encXYN 0x8 x y 0
  | .orVxVy x y => encXYN 0x8 x y 1
  | .andVxVy x y => encXYN 0x8 x y 2
  | .xorVxVy x y => encXYN 0x8 x y 3
  | .addVxVy x y => encXYN 0x8 x y 4
  | .subVxVy x y => encXYN 0x8 x y 5
  | .shrVx x => encXYN 0x8 x 0 6
  | .subnVxVy x y => encXYN 0x8 x y 7
  | .shlVx x => encXYN 0x8 x 0 14
  | .mulVxVy x y => encXYN 0x9 x y 1
  | .divVxVy x y => encXYN 0x9 x y 2
  | .bcdVxVy x y => encXYN 0x9 x y 3
  | .ldI nnn => encA 0xA nnn
  | .addIVx x => encXS 0xF x 0x1E
  | .ldFVx x => encXS 0xF x 0x29
  | .ldHfVx x => encXS 0xF x 0x30
  | .ldBVx x => encXS 0xF x 0x33
  | .ldMemVx x => encXS 0xF x 0x55
  | .ldVxMem x => encXS 0xF x 0x65
  | .ldRVx x => encXS 0xF x 0x75
  | .ldVxR x => encXS 0xF x 0x85
  | .rndVxKk x kk => encXK 0xC x kk
  | .drwVxVyN x y n => encXYN 0xD x y n
  | .skpVx x => encXS 0xE x 0x9E
  | .sknpVx x => encXS 0xE x 0xA1
  | .ldVxDt x => encXS 0xF x 0x07
  | .ldVxK x => encXS 0xF x 0x0A
  | .ldDtVx x => encXS 0xF x 0x15
  | .ldStVx x => encXS 0xF x 0x18
  | .scd n => encWN 0x00C n
  | .scr => encW 0x00FB
  | .scl => encW 0x00FC
  | .exit => encW 0x00FD
  | .low => encW 0x00FE
  | .high => encW 0x00FF
  | .ldAVx x => encXS 0xF x 0x94

/-! ## The opcode table (R95) -/

/-- One line of the opcode map: an opcode `w` selects it when `w &&& mask = pattern` (R95). -/
structure OpcodeRow where
  mnemonic : String
  pattern : Word
  mask : Word
  deriving DecidableEq, Repr

/-- The 50 lines of the map after R95, in its order, under the mnemonics of opcode_table.json. -/
def opcodeTable : List OpcodeRow :=
  [⟨"CLS", 0x00E0, 0xFFFF⟩, ⟨"RET", 0x00EE, 0xFFFF⟩,
   ⟨"JP_nnn", 0x1000, 0xF000⟩, ⟨"CALL_nnn", 0x2000, 0xF000⟩,
   ⟨"JP_V0__nnn", 0xB000, 0xF000⟩, ⟨"SE_Vx__kk", 0x3000, 0xF000⟩,
   ⟨"SNE_Vx__kk", 0x4000, 0xF000⟩, ⟨"SE_Vx__Vy", 0x5000, 0xF00F⟩,
   ⟨"SGT_Vx__Vy", 0x5001, 0xF00F⟩, ⟨"SLT_Vx__Vy", 0x5002, 0xF00F⟩] ++
  [⟨"SNE5_Vx__Vy", 0x5003, 0xF00F⟩, ⟨"SNE_Vx__Vy", 0x9000, 0xF00F⟩,
   ⟨"LD_Vx__kk", 0x6000, 0xF000⟩, ⟨"ADD_Vx__kk", 0x7000, 0xF000⟩,
   ⟨"LD_Vx__Vy", 0x8000, 0xF00F⟩, ⟨"OR_Vx__Vy", 0x8001, 0xF00F⟩,
   ⟨"AND_Vx__Vy", 0x8002, 0xF00F⟩, ⟨"XOR_Vx__Vy", 0x8003, 0xF00F⟩,
   ⟨"ADD_Vx__Vy", 0x8004, 0xF00F⟩, ⟨"SUB_Vx__Vy", 0x8005, 0xF00F⟩] ++
  [⟨"SHR_Vx", 0x8006, 0xF00F⟩, ⟨"SUBN_Vx__Vy", 0x8007, 0xF00F⟩,
   ⟨"SHL_Vx", 0x800E, 0xF00F⟩, ⟨"MUL_Vx__Vy", 0x9001, 0xF00F⟩,
   ⟨"DIV_Vx__Vy", 0x9002, 0xF00F⟩, ⟨"BCD_Vx__Vy", 0x9003, 0xF00F⟩,
   ⟨"LD_I__nnn", 0xA000, 0xF000⟩, ⟨"ADD_I__Vx", 0xF01E, 0xF0FF⟩,
   ⟨"LD_F__Vx", 0xF029, 0xF0FF⟩, ⟨"LD_HF__Vx", 0xF030, 0xF0FF⟩] ++
  [⟨"LD_B__Vx", 0xF033, 0xF0FF⟩, ⟨"LD__I___Vx", 0xF055, 0xF0FF⟩,
   ⟨"LD_Vx___I", 0xF065, 0xF0FF⟩, ⟨"LD_R__Vx", 0xF075, 0xF0FF⟩,
   ⟨"LD_Vx__R", 0xF085, 0xF0FF⟩, ⟨"RND_Vx__kk", 0xC000, 0xF000⟩,
   ⟨"DRW_Vx__Vy__n", 0xD000, 0xF000⟩, ⟨"SKP_Vx", 0xE09E, 0xF0FF⟩,
   ⟨"SKNP_Vx", 0xE0A1, 0xF0FF⟩, ⟨"LD_Vx__DT", 0xF007, 0xF0FF⟩] ++
  [⟨"LD_Vx__K", 0xF00A, 0xF0FF⟩, ⟨"LD_DT__Vx", 0xF015, 0xF0FF⟩,
   ⟨"LD_ST__Vx", 0xF018, 0xF0FF⟩, ⟨"SCD_n", 0x00C0, 0xFFF0⟩,
   ⟨"SCR", 0x00FB, 0xFFFF⟩, ⟨"SCL", 0x00FC, 0xFFFF⟩,
   ⟨"EXIT", 0x00FD, 0xFFFF⟩, ⟨"LOW", 0x00FE, 0xFFFF⟩,
   ⟨"HIGH", 0x00FF, 0xFFFF⟩, ⟨"LD_A__Vx", 0xF094, 0xF0FF⟩]

/-- The line of the opcode table an instruction stands for. -/
def mnemonicOf : Instr → String
  | .cls => "CLS"
  | .ret => "RET"
  | .jp _ => "JP_nnn"
  | .call _ => "CALL_nnn"
  | .jpV0 _ => "JP_V0__nnn"
  | .seVxKk _ _ => "SE_Vx__kk"
  | .sneVxKk _ _ => "SNE_Vx__kk"
  | .seVxVy _ _ => "SE_Vx__Vy"
  | .sgtVxVy _ _ => "SGT_Vx__Vy"
  | .sltVxVy _ _ => "SLT_Vx__Vy"
  | .sne5VxVy _ _ => "SNE5_Vx__Vy"
  | .sneVxVy _ _ => "SNE_Vx__Vy"
  | .ldVxKk _ _ => "LD_Vx__kk"
  | .addVxKk _ _ => "ADD_Vx__kk"
  | .ldVxVy _ _ => "LD_Vx__Vy"
  | .orVxVy _ _ => "OR_Vx__Vy"
  | .andVxVy _ _ => "AND_Vx__Vy"
  | .xorVxVy _ _ => "XOR_Vx__Vy"
  | .addVxVy _ _ => "ADD_Vx__Vy"
  | .subVxVy _ _ => "SUB_Vx__Vy"
  | .shrVx _ => "SHR_Vx"
  | .subnVxVy _ _ => "SUBN_Vx__Vy"
  | .shlVx _ => "SHL_Vx"
  | .mulVxVy _ _ => "MUL_Vx__Vy"
  | .divVxVy _ _ => "DIV_Vx__Vy"
  | .bcdVxVy _ _ => "BCD_Vx__Vy"
  | .ldI _ => "LD_I__nnn"
  | .addIVx _ => "ADD_I__Vx"
  | .ldFVx _ => "LD_F__Vx"
  | .ldHfVx _ => "LD_HF__Vx"
  | .ldBVx _ => "LD_B__Vx"
  | .ldMemVx _ => "LD__I___Vx"
  | .ldVxMem _ => "LD_Vx___I"
  | .ldRVx _ => "LD_R__Vx"
  | .ldVxR _ => "LD_Vx__R"
  | .rndVxKk _ _ => "RND_Vx__kk"
  | .drwVxVyN _ _ _ => "DRW_Vx__Vy__n"
  | .skpVx _ => "SKP_Vx"
  | .sknpVx _ => "SKNP_Vx"
  | .ldVxDt _ => "LD_Vx__DT"
  | .ldVxK _ => "LD_Vx__K"
  | .ldDtVx _ => "LD_DT__Vx"
  | .ldStVx _ => "LD_ST__Vx"
  | .scd _ => "SCD_n"
  | .scr => "SCR"
  | .scl => "SCL"
  | .exit => "EXIT"
  | .low => "LOW"
  | .high => "HIGH"
  | .ldAVx _ => "LD_A__Vx"

end Sys2Proof
end

