-- ==== Sys2Proof/WellFormed.lean ====
section
/-! DEFINITION. Which terms the spec admits. An instruction needs no check: every value of every operand
field is legal (30_encoding.md R93, R99) and the operand types hold nothing else. What can be ill formed is
what the host offers: a program image that does not fit, and a schedule that loads after the run has started
or outside the program area (70_reset_and_hazards.md R344, D24). -/

namespace Sys2Proof

/-- The lowest address of the program area and the reset value of `PC` (20_memory.md R61). -/
def programBase : Addr := 0x200

/-- The largest program image, 4096 - 512 bytes (R344). -/
def maxImageBytes : Nat := 3584

/-- The image fits between 0x200 and the end of memory (R344). -/
def Image.wellFormed (image : Image) : Bool := image.length ≤ maxImageBytes

/-- Loads stand between reset and the first step, and inside the program area (R344, D24). `loadOpen` says
whether the load port may be used before the first event. -/
def Schedule.wellFormed (loadOpen : Bool) : Schedule → Bool
  | [] => true
  | .step _ :: es => Schedule.wellFormed false es
  | .reset :: es => Schedule.wellFormed true es
  | .load a _ :: es => loadOpen && programBase ≤ a && Schedule.wellFormed loadOpen es
  | .tick :: es => Schedule.wellFormed loadOpen es
  | .key _ :: es => Schedule.wellFormed loadOpen es
  | .halt :: es => Schedule.wellFormed loadOpen es

end Sys2Proof
end

