-- ==== Sys2Proof/Machine/State.lean ====
section
/-! DEFINITION. The state of the machine as the spec gives it (10_state.md), the reasons a step can stop, and
the state after reset (70_reset_and_hazards.md R341). Plain data throughout. -/

namespace Sys2Proof.Machine

/-- `STATUS`, the run status (R40). Its five values are all there is: the codes 5 to 7 never occur. -/
inductive Status where
  /-- Code 0: the executor takes a step when one is scheduled. -/
  | running
  /-- Code 1: the executor is inside `LD Vx, K`. -/
  | waitKey
  /-- Code 2: ended by a halt request. Terminal. -/
  | halted
  /-- Code 3: ended by UnsupportedOpcode. Terminal. -/
  | unsupported
  /-- Code 4: ended by InvalidOpcode. Terminal. -/
  | invalid
  deriving DecidableEq, Repr

/-- `MEM`, as the bytes that differ from what reset leaves there: addresses strictly rising, no entry equal
to `Memory.blank` at its address (`Memory.wf`, Machine/Ops.lean). -/
abbrev Memory := List Host.Cell

/-- The state of the machine (10_state.md). The last three fields are the model's own: the inputs still to
come, the inputs of the step in progress, and the number of free values drawn (log 6, log 7). -/
structure State where
  /-- `V[0]` to `V[15]`; `V[15]` is `VF` (R20, R21). -/
  v : Vector Byte 16
  /-- The index register `I` (R24). -/
  i : Addr
  /-- The program counter (R22). -/
  pc : Addr
  /-- The stack pointer: the next free stack entry, mod 16 (R25). -/
  sp : BitVec 4
  /-- The return stack (R26). -/
  stack : Vector Addr 16
  /-- The delay timer (R27). -/
  dt : Byte
  /-- The sound timer (R28). -/
  st : Byte
  /-- The key request mask (R29). -/
  krm : BitVec 16
  /-- The auxiliary bank `RPL[0]` to `RPL[7]` (R30). -/
  rpl : RplBank
  /-- `MEM` (R31). -/
  mem : Memory
  /-- `DISP` (R32). -/
  disp : Display
  /-- `STATUS` (R40). -/
  status : Status
  /-- `DIAG`, the opcode a terminal outcome reported (R41). -/
  diag : Word
  /-- `IR`, the opcode the step in progress fetched; in WaitKey still the `Fx0A` opcode (R42). -/
  ir : Word
  /-- Whether `mem_load` may still be used: from reset to the first scheduled step (R9, R344). -/
  loadOpen : Bool
  /-- What the host and the tick source do next, oldest first; past its end every event is free (R313; log 6). -/
  events : Schedule
  /-- The port values the step in progress sampled (R9; log 7). -/
  pins : Pins
  /-- How many free values have been drawn (log 6, log 7). -/
  draws : Nat
  deriving DecidableEq, Repr

/-- The machine has no fault: no memory, arithmetic, alignment, stack or privilege error exists, and the two
opcode errors are states it goes on to (R300, R302). So this type has no constructor and no step answers
`fault`; nothing is unsafe about it. -/
inductive Fault where
  deriving DecidableEq, Repr

/-- Why a step has no meaning. -/
inductive Refusal where
  /-- Raised by `exec` for an instruction without a meaning yet. Every instruction has one, so no arm uses it.
  Safe: nothing is claimed of such a step. -/
  | notModelled (mnemonic : String)
  /-- Raised by the event `load` after the run has started: the host's duty forbids it and the spec gives it
  no effect (R344, D24, U19; log 8). Safe: no claim rests on a run that goes on from there. -/
  | loadDuringRun
  /-- Raised by the event `load` at an address below 0x200: the image goes to 0x200 and up (R344, D24; log 8).
  Safe, as `loadDuringRun`. -/
  | loadOutsideImage
  deriving DecidableEq, Repr

/-- The outcome of a meaning or a step. -/
abbrev Result := Host.Outcome State Fault Refusal

/-- Port values nothing is said of: free keys and a free random byte, with no halt request (log 7). They stand in
the reset state and at the step that `withFetchWord` schedules. -/
def freePins (draw : Nat) : Pins :=
  { keys := Config.keyLines draw, rnd := Config.rndByte draw, haltReq := false }

/-- The state after reset (R46, R341): everything zero, `PC` = 0x200, the fonts in memory (they are what an
unlisted address reads as), STATUS Running. `RPL`, `DISP` and `IR` are free values (log 2); no input is
listed, so the next event is a free one (log 6). -/
def State.reset : State where
  v := Vector.replicate 16 0
  i := 0
  pc := programBase
  sp := 0
  stack := Vector.replicate 16 0
  dt := 0
  st := 0
  krm := 0
  rpl := Config.rplReset 0 (Vector.replicate 8 0)
  mem := []
  disp := Config.dispReset 0 (Vector.replicate 32 (Vector.replicate 64 false))
  status := .running
  diag := 0
  ir := Config.irReset 0 0
  loadOpen := true
  events := []
  pins := freePins 0
  draws := 1

end Sys2Proof.Machine
end

