-- ==== Sys2Proof/Machine/Ops.lean ====
section
/-! DEFINITION. The operations over memory, registers, the stack, PC and the run status that every meaning
is written with (00_scope.md R12, R13). -/

namespace Sys2Proof.Machine

/-! ## Memory (20_memory.md) -/

/-- What an address reads as when no entry lists it: the launch contents of R31 and R61, the small font from
0, the large font from 80, and 0 above it. The large font has 10 or 16 glyphs, so 80 to 179 always belong to
it and 180 to 239 only when there are 16 (R8, R343; log 3, log 4). -/
def Memory.blank (a : Nat) : Byte :=
  if a < 80 then Config.fontSmall.getD a 0
  else if a < 180 then Config.fontLarge (a - 80)
  else if a < 240 then bif Config.hasSixteenLargeGlyphs then Config.fontLarge (a - 80) else 0
  else 0

/-- The canonical form: addresses strictly rising and below 4096, no entry equal to what an unlisted address
reads as. -/
def Memory.wf (m : Memory) : Bool :=
  decide (m.Pairwise (fun c d => c.1 < d.1)) && m.all (fun c => decide (c.1 < 4096) && c.2 != Memory.blank c.1)

/-- The entry of an address, if it has one. -/
def Memory.entry? : Memory → Nat → Option Byte
  | [], _ => none
  | (k, b) :: m, a => if a = k then some b else Memory.entry? m a

/-- `MemRead(a, 1)` (R12). The type of `a` reduces it mod 4096 (R65). -/
def Memory.read (m : Memory) (a : Addr) : Byte := (Memory.entry? m a.toNat).getD (Memory.blank a.toNat)

/-- Lists a byte at an address, in place. -/
def Memory.put : Memory → Nat → Byte → Memory
  | [], a, b => [(a, b)]
  | (k, c) :: m, a, b =>
    if a < k then (a, b) :: (k, c) :: m
    else if a = k then (a, b) :: m
    else (k, c) :: Memory.put m a b

/-- `MemWrite(a, 1, b)` (R12). Writing what an unlisted address reads as removes the entry. -/
def Memory.write (m : Memory) (a : Addr) (b : Byte) : Memory :=
  if b = Memory.blank a.toNat then m.filter (fun c => c.1 != a.toNat) else Memory.put m a.toNat b

/-- `n` bytes at ascending addresses, each mod 4096 (R65, R66). -/
def Memory.readBytes (m : Memory) (a : Addr) : Nat → List Byte
  | 0 => []
  | n + 1 => Memory.read m a :: Memory.readBytes m (a + 1) n

/-- Writes bytes at ascending addresses, each mod 4096, in that order (R65, R66, R69). -/
def Memory.writeBytes (m : Memory) (a : Addr) : List Byte → Memory
  | [] => m
  | b :: bs => Memory.writeBytes (Memory.write m a b) (a + 1) bs

/-! ## Registers (10_state.md R20 to R22) -/

/-- `V[r]`. -/
def State.getV (s : State) (r : Reg) : Byte := s.v[r]

/-- `V[r] <- b`. -/
def State.setV (s : State) (r : Reg) (b : Byte) : State := { s with v := s.v.set r.val b r.isLt }

/-- The index of the flag register `VF` (R21). -/
def flagReg : Reg := 15

/-- The result to `V[x]`, then the flag to `VF`, last (42_alu.md R160). When `x` is 15 the flag survives. -/
def State.setResultFlag (s : State) (x : Reg) (result flag : Byte) : State :=
  (s.setV x result).setV flagReg flag

/-- `I <- a`. -/
def State.setI (s : State) (a : Addr) : State := { s with i := a }

/-- `PC <- a`; the type of `a` reduces it mod 4096 (R12). -/
def State.setPc (s : State) (a : Addr) : State := { s with pc := a }

/-- `skip`: `PC <- (PC + 2) mod 4096` when the condition holds (R12, R147). -/
def State.skipIf (s : State) (c : Bool) : State := s.setPc (if c then s.pc + 2 else s.pc)

/-- `MEM` replaced by the memory after a store. -/
def State.setMem (s : State) (m : Memory) : State := { s with mem := m }

/-- `DISP` replaced by the display after a drawing operation. -/
def State.setDisp (s : State) (d : Display) : State := { s with disp := d }

/-- `RPL` replaced. -/
def State.setRpl (s : State) (r : RplBank) : State := { s with rpl := r }

/-- `DT <- b` (R27). -/
def State.setDt (s : State) (b : Byte) : State := { s with dt := b }

/-- `ST <- b` (R28). -/
def State.setSt (s : State) (b : Byte) : State := { s with st := b }

/-- `KRM <- KRM | (1 << k)` (R29, R240). -/
def State.noteKey (s : State) (k : Key) : State := { s with krm := s.krm ||| BitVec.twoPow 16 k }

/-- `STATUS <- t` (R40). -/
def State.setStatus (s : State) (t : Status) : State := { s with status := t }

/-! ## The return stack (10_state.md R25, R26) -/

/-- `STACK[SP] <- a; SP <- (SP + 1) mod 16` (R123). A full stack wraps, without a sign. -/
def State.push (s : State) (a : Addr) : State :=
  { s with stack := s.stack.set s.sp.toNat a s.sp.isLt, sp := s.sp + 1 }

/-- `SP <- (SP - 1) mod 16; PC <- STACK[SP]` (R121). An empty stack wraps; the entry is not cleared. -/
def State.popPc (s : State) : State :=
  { s with sp := s.sp - 1, pc := s.stack[(s.sp - 1).toNat]'(s.sp - 1).isLt }

/-! ## Fetch (00_scope.md R13) -/

/-- `MemRead(PC, 2)`: two bytes, high byte first, the second address mod 4096 (R12, R62, R65). -/
def State.fetchWord (s : State) : Word :=
  wordOfBytes (Memory.read s.mem s.pc) (Memory.read s.mem (s.pc + 1))

/-- `IR <- MemRead(PC, 2); PC <- (PC + 2) mod 4096` (R13, R22). -/
def State.fetch (s : State) : State := { s with ir := s.fetchWord, pc := s.pc + 2 }

/-! ## Terminal outcomes (60_exceptions.md R302 to R308) -/

/-- The number in the 3 bits of `STATUS` (R40). -/
def Status.code : Status → BitVec 3
  | .running => 0
  | .waitKey => 1
  | .halted => 2
  | .unsupported => 3
  | .invalid => 4

/-- The run is over: the executor takes no further step and only reset changes STATUS (R40, R307). -/
def Status.terminal : Status → Bool
  | .running => false
  | .waitKey => false
  | .halted => true
  | .unsupported => true
  | .invalid => true

/-- `raise`, the machine's one way to take an opcode error (R302): DIAG takes the opcode as fetched, STATUS
the outcome's code, and nothing else is written. There is no vector, no saved register and no return (R307,
R308); the only way out is reset. -/
def State.raise (s : State) (outcome : Status) : State := { s with diag := s.ir, status := outcome }

/-- `raise UnsupportedOpcode(IR)`. -/
def State.raiseUnsupported (s : State) : State := s.raise .unsupported

/-- `raise InvalidOpcode(IR)`. -/
def State.raiseInvalid (s : State) : State := s.raise .invalid

/-! ## Outputs (00_scope.md R9) -/

/-- The port `tone_en`: 1 exactly while `ST` is not 0 (R28, R322). -/
def State.toneEn (s : State) : Bool := s.st != 0

end Sys2Proof.Machine
end

