-- ==== Sys2Proof/Machine/Operands.lean ====
section
/-! DEFINITION. The operand forms of 30_encoding.md R93 and 44_mem_index.md R207: a register, a pair of
registers, a key number, memory at `(I + k) mod 4096`, and the counted register ranges. Immediates stand in
the instruction and are used as they are. -/

namespace Sys2Proof.Machine

/-- The bytes at `I`, `I + 1`, … each mod 4096 (R207). `I` is not changed. -/
def State.loadAtI (s : State) (n : Nat) : List Byte := Memory.readBytes s.mem s.i n

/-- Stores bytes at `I`, `I + 1`, … each mod 4096, in ascending order (R207). `I` is not changed. -/
def State.storeAtI (s : State) (bs : List Byte) : State := s.setMem (Memory.writeBytes s.mem s.i bs)

/-- The byte at `(I + k) mod 4096` (R207). -/
def State.byteAtI (s : State) (k : Nat) : Byte := Memory.read s.mem (s.i + BitVec.ofNat 12 k)

/-- `V[0]` to `V[x]`, `x + 1` bytes (R205). -/
def State.regsUpTo (s : State) (x : Reg) : List Byte := s.v.toList.take (x.val + 1)

/-- Replaces `V[0]` to `V[n-1]` by the given bytes, register `k` by `f k` (R206, R209). -/
def State.setRegsBelow (s : State) (n : Nat) (f : Nat → Byte) : State :=
  { s with v := Vector.ofFn (fun r : Reg => if r.val < n then f r.val else s.v[r]) }

/-- How many entries `LD R, Vx` and `LD Vx, R` move: `(X + 1) mod 4` (R208, C1). -/
def transferCount (x : Reg) : Nat := (x.val + 1) % 4

/-- The key a register names: its low 4 bits (R240, D18). -/
def State.keyOperand (s : State) (x : Reg) : Key := Fin.ofNat 16 (s.getV x).toNat

/-- The state of a key line as the step in progress sampled it (R240, R323). -/
def State.keyDown (s : State) (k : Key) : Bool := s.pins.keys.getLsbD k

/-- The register pair as a 16-bit word, `V[X]` the high byte (43_ext_arith.md R192). -/
def State.pairOperand (s : State) (x y : Reg) : Nat := (s.getV x).toNat * 256 + (s.getV y).toNat

/-- The three decimal digits of a byte, hundreds first (R204). -/
def bcd3 (b : Byte) : List Byte :=
  [b.toNat / 100, b.toNat / 10 % 10, b.toNat % 10].map (BitVec.ofNat 8)

/-- The five decimal digits of a 16-bit word, ten-thousands first (R192). -/
def bcd5 (w : Nat) : List Byte :=
  [w / 10000 % 10, w / 1000 % 10, w / 100 % 10, w / 10 % 10, w % 10].map (BitVec.ofNat 8)

/-- The address of a small glyph: `5 * V[X]` on the whole byte (R202, D14). -/
def smallGlyph (digit : Byte) : Addr := BitVec.ofNat 12 (5 * digit.toNat)

/-- The address of a large glyph: `80 + 10 * V[X]` on the whole byte (R203, D14). -/
def largeGlyph (digit : Byte) : Addr := BitVec.ofNat 12 (80 + 10 * digit.toNat)

end Sys2Proof.Machine
end

