-- ==== Sys2Proof/Machine/Alu.lean ====
section
/-! DEFINITION. Register load and 8-bit arithmetic (42_alu.md). Operands are read before anything is written,
and `VF` is written last (R160). -/

namespace Sys2Proof.Machine

/-- `LD Vx, kk` (R161). -/
def execLdVxKk (x : Reg) (kk : Byte) (s : State) : Result := .next (s.setV x kk)

/-- `ADD Vx, kk`: no carry is written (R162). -/
def execAddVxKk (x : Reg) (kk : Byte) (s : State) : Result := .next (s.setV x (s.getV x + kk))

/-- `LD Vx, Vy` (R163). -/
def execLdVxVy (x y : Reg) (s : State) : Result := .next (s.setV x (s.getV y))

/-- `OR Vx, Vy`: `VF` is left alone (R164). -/
def execOrVxVy (x y : Reg) (s : State) : Result := .next (s.setV x (s.getV x ||| s.getV y))

/-- `AND Vx, Vy`: `VF` is left alone (R165). -/
def execAndVxVy (x y : Reg) (s : State) : Result := .next (s.setV x (s.getV x &&& s.getV y))

/-- `XOR Vx, Vy`: `VF` is left alone (R166). -/
def execXorVxVy (x y : Reg) (s : State) : Result := .next (s.setV x (s.getV x ^^^ s.getV y))

/-- `ADD Vx, Vy` with carry flag (R167). -/
def execAddVxVy (x y : Reg) (s : State) : Result :=
  .next (s.setResultFlag x (s.getV x + s.getV y) (carryFlag (s.getV x) (s.getV y)))

/-- `SUB Vx, Vy` with no-borrow flag (R168). -/
def execSubVxVy (x y : Reg) (s : State) : Result :=
  .next (s.setResultFlag x (s.getV x - s.getV y) (noBorrowFlag (s.getV x) (s.getV y)))

/-- `SHR Vx`: logical, by one; Y is not used (R169, R96). -/
def execShrVx (x : Reg) (s : State) : Result :=
  .next (s.setResultFlag x (s.getV x >>> 1) (shrFlag (s.getV x)))

/-- `SUBN Vx, Vy`: `V[y] - V[x]` (R170). -/
def execSubnVxVy (x y : Reg) (s : State) : Result :=
  .next (s.setResultFlag x (s.getV y - s.getV x) (noBorrowFlag (s.getV y) (s.getV x)))

/-- `SHL Vx`: by one; Y is not used (R171, R96). -/
def execShlVx (x : Reg) (s : State) : Result :=
  .next (s.setResultFlag x (s.getV x <<< 1) (shlFlag (s.getV x)))

end Sys2Proof.Machine
end

