-- ==== Sys2Proof/Machine/Sprite.lean ====
section
/-! DEFINITION. The display surface and the sprite compositor (45_io.md R233, R234; 60_exceptions.md R324). -/

namespace Sys2Proof.Machine

/-- `DISP[y][x]` (R32). -/
def Display.pixel (d : Display) (y : Row) (x : Col) : Bool := d[y][x]

/-- `DISP[y][x] <- b`. -/
def Display.setPixel (d : Display) (y : Row) (x : Col) (b : Bool) : Display :=
  d.set y.val (d[y].set x.val b x.isLt) y.isLt

/-- The full-clear operation of the display port (R120, R324). -/
def Display.clear : Display := Vector.replicate 32 (Vector.replicate 64 false)

/-- One use of the XOR-set operation of the display port: the pixel and the bit drawn there (R324). -/
structure PixelOp where
  y : Row
  x : Col
  bit : Bool
  deriving DecidableEq, Repr

/-- XOR-set with feedback: the pixel becomes old XOR bit; the answer says whether it was erased, that is old
and bit were both 1 (R233, R324). -/
def Display.xorPixel (d : Display) (op : PixelOp) : Display × Bool :=
  let old := Display.pixel d op.y op.x
  (Display.setPixel d op.y op.x (old ^^ op.bit), old && op.bit)

/-- The row of sprite row `r`: `(originY + r) & 31` (R233). -/
def spriteRow (originY : Byte) (r : Nat) : Row := Fin.ofNat 32 (originY.toNat + r)

/-- The column of bit `b` of a sprite row: `(originX + b) mod 64` (R233). -/
def spriteCol (originX : Byte) (b : Nat) : Col := Fin.ofNat 64 (originX.toNat + b)

/-- The eight pixel operations of one sprite row, bit 7 of the byte first (R233, R234). -/
def rowOps (originX originY : Byte) (r : Nat) (byte : Byte) : List PixelOp :=
  (List.range 8).map fun b =>
    { y := spriteRow originY r, x := spriteCol originX b, bit := byte.getLsbD (7 - b) }

/-- The pixel operations of a sprite from its row `r` on: rows top to bottom, all 8 bits of each, 0 bits
included (R234). -/
def spriteOps (originX originY : Byte) : Nat → List Byte → List PixelOp
  | _, [] => []
  | r, byte :: rest => rowOps originX originY r byte ++ spriteOps originX originY (r + 1) rest

/-- Runs pixel operations in order; the answer is 1 for the whole call if any pixel was erased (R233, C8). -/
def Display.run (d : Display) (hit : Bool) : List PixelOp → Display × Bool
  | [] => (d, hit)
  | op :: ops => Display.run (Display.xorPixel d op).1 (hit || (Display.xorPixel d op).2) ops

/-- `drawSprite(originX, originY, bytes)`: the accumulator starts at 0 in each call (R233, R234). -/
def Display.drawSprite (d : Display) (originX originY : Byte) (bytes : List Byte) : Display × Bool :=
  Display.run d false (spriteOps originX originY 0 bytes)

end Sys2Proof.Machine
end

