-- ==== Sys2Proof/Machine/ControlFlow.lean ====
section
/-! DEFINITION. The control-flow family (40_control_flow.md). In every meaning `s.pc` is already the address
after the instruction (00_scope.md R13). -/

namespace Sys2Proof.Machine

/-- `CLS`: every pixel becomes 0 (R120). -/
def execCls (s : State) : Result := .next (s.setDisp Display.clear)

/-- `RET`: SP back by one, then PC from the stack; wraps at 0 (R121). -/
def execRet (s : State) : Result := .next s.popPc

/-- `JP nnn` (R122). -/
def execJp (nnn : Addr) (s : State) : Result := .next (s.setPc nnn)

/-- `CALL nnn`: the advanced PC is pushed (R123). -/
def execCall (nnn : Addr) (s : State) : Result := .next ((s.push s.pc).setPc nnn)

/-- `JP V0, nnn`: `PC <- (nnn + V[0]) mod 4096`; the register is always `V[0]` (R124, R96). -/
def execJpV0 (nnn : Addr) (s : State) : Result := .next (s.setPc (nnn + (s.getV 0).setWidth 12))

end Sys2Proof.Machine
end

