-- ==== Sys2Proof/Machine/ExtArith.lean ====
section
/-! DEFINITION. Multiply, divide and 16-bit BCD (43_ext_arith.md). -/

namespace Sys2Proof.Machine

/-- `MUL Vx, Vy`: low byte to `V[x]`, high byte to `VF`, last (R190, D12). -/
def execMulVxVy (x y : Reg) (s : State) : Result :=
  .next (s.setResultFlag x (mulLow (s.getV x) (s.getV y)) (mulHigh (s.getV x) (s.getV y)))

/-- `DIV Vx, Vy`: quotient to `V[x]`, remainder to `VF`, last; a divisor of 0 takes both from `DIV0` and is no
fault (R191, D12, D13). -/
def execDivVxVy (x y : Reg) (s : State) : Result :=
  .next (s.setResultFlag x (quotRem (s.getV x) (s.getV y)).1 (quotRem (s.getV x) (s.getV y)).2)

/-- `BCD Vx, Vy`: five digits at `I` to `I + 4`; registers and `I` are not changed (R192). -/
def execBcdVxVy (x y : Reg) (s : State) : Result := .next (s.storeAtI (bcd5 (s.pairOperand x y)))

end Sys2Proof.Machine
end

