-- ==== Sys2Proof/Machine/Io.lean ====
section
/-! DEFINITION. Random byte, sprite draw, keys and timers (45_io.md). The key lines and the random byte are
the values the step in progress sampled (`State.pins`). -/

namespace Sys2Proof.Machine

/-- `RND Vx, kk` (R231). -/
def execRndVxKk (x : Reg) (kk : Byte) (s : State) : Result := .next (s.setV x (s.pins.rnd &&& kk))

/-- `DRW Vx, Vy, n`: origin and sprite are read first, the display is drawn on, and `VF` takes the collision
flag, last (R232). -/
def execDrwVxVyN (x y : Reg) (n : Count) (s : State) : Result :=
  let drawn := Display.drawSprite s.disp (s.getV x) (s.getV y) (s.loadAtI n.val)
  .next ((s.setDisp drawn.1).setV flagReg (flagByte drawn.2))

/-- `SKP Vx`: notes the query in KRM and skips if the key is down (R240). -/
def execSkpVx (x : Reg) (s : State) : Result :=
  .next ((s.noteKey (s.keyOperand x)).skipIf (s.keyDown (s.keyOperand x)))

/-- `SKNP Vx`: notes the query in KRM and skips if the key is not down (R241). -/
def execSknpVx (x : Reg) (s : State) : Result :=
  .next ((s.noteKey (s.keyOperand x)).skipIf (!s.keyDown (s.keyOperand x)))

/-- `LD Vx, DT` (R242). -/
def execLdVxDt (x : Reg) (s : State) : Result := .next (s.setV x s.dt)

/-- `LD Vx, K`, part 1: the executor enters the key wait. The register that will take the key is the field X
of `IR`, which still holds this opcode when the key event comes (R243, R42; part 2 is `State.keyEvent`). -/
def execLdVxK (_x : Reg) (s : State) : Result := .next (s.setStatus .waitKey)

/-- `LD DT, Vx` (R244). -/
def execLdDtVx (x : Reg) (s : State) : Result := .next (s.setDt (s.getV x))

/-- `LD ST, Vx`; `tone_en` follows (R245). -/
def execLdStVx (x : Reg) (s : State) : Result := .next (s.setSt (s.getV x))

end Sys2Proof.Machine
end

