-- ==== Sys2Proof/Machine/MemIndex.lean ====
section
/-! DEFINITION. Index register, memory and auxiliary bank (44_mem_index.md). No instruction here but the four
that name `I` as destination changes `I` (R207). -/

namespace Sys2Proof.Machine

/-- `LD I, nnn` (R200). -/
def execLdI (nnn : Addr) (s : State) : Result := .next (s.setI nnn)

/-- `ADD I, Vx`: `I` mod 4096, `VF` = the overflow, last (R201, C7). -/
def execAddIVx (x : Reg) (s : State) : Result :=
  .next ((s.setI (indexSum s.i (s.getV x))).setV flagReg (indexOverflowFlag s.i (s.getV x)))

/-- `LD F, Vx` (R202, D14). -/
def execLdFVx (x : Reg) (s : State) : Result := .next (s.setI (smallGlyph (s.getV x)))

/-- `LD HF, Vx` (R203, D14). -/
def execLdHfVx (x : Reg) (s : State) : Result := .next (s.setI (largeGlyph (s.getV x)))

/-- `LD B, Vx`: three digits at `I` to `I + 2` (R204). -/
def execLdBVx (x : Reg) (s : State) : Result := .next (s.storeAtI (bcd3 (s.getV x)))

/-- `LD [I], Vx`: `V[0]` to `V[x]` to memory at `I`, ascending (R205). -/
def execLdMemVx (x : Reg) (s : State) : Result := .next (s.storeAtI (s.regsUpTo x))

/-- `LD Vx, [I]`: `V[0]` to `V[x]` from memory at `I` (R206). -/
def execLdVxMem (x : Reg) (s : State) : Result := .next (s.setRegsBelow (x.val + 1) s.byteAtI)

/-- `LD R, Vx`: the first `(X + 1) mod 4` registers to the auxiliary bank (R208, C1). -/
def execLdRVx (x : Reg) (s : State) : Result :=
  .next (s.setRpl (Vector.ofFn fun k : Fin 8 =>
    if k.val < transferCount x then s.getV (Fin.ofNat 16 k.val) else s.rpl[k]))

/-- `LD Vx, R`: the first `(X + 1) mod 4` registers from the auxiliary bank (R209, C1). -/
def execLdVxR (x : Reg) (s : State) : Result :=
  .next (s.setRegsBelow (transferCount x) fun k => s.rpl[Fin.ofNat 8 k])

end Sys2Proof.Machine
end

