-- ==== Sys2Proof/Machine/Skip.lean ====
section
/-! DEFINITION. The conditional skips between registers and immediates (41_skip.md). Comparisons are of
unsigned bytes (R143, R144, D28). Nothing but PC is written. -/

namespace Sys2Proof.Machine

/-- `SE Vx, kk` (R140). -/
def execSeVxKk (x : Reg) (kk : Byte) (s : State) : Result := .next (s.skipIf (s.getV x == kk))

/-- `SNE Vx, kk` (R141). -/
def execSneVxKk (x : Reg) (kk : Byte) (s : State) : Result := .next (s.skipIf (s.getV x != kk))

/-- `SE Vx, Vy` (R142). -/
def execSeVxVy (x y : Reg) (s : State) : Result := .next (s.skipIf (s.getV x == s.getV y))

/-- `SGT Vx, Vy` (R143). -/
def execSgtVxVy (x y : Reg) (s : State) : Result := .next (s.skipIf (decide (s.getV x > s.getV y)))

/-- `SLT Vx, Vy` (R144). -/
def execSltVxVy (x y : Reg) (s : State) : Result := .next (s.skipIf (decide (s.getV x < s.getV y)))

/-- `SNE Vx, Vy`, the form of class 5 (R145). -/
def execSne5VxVy (x y : Reg) (s : State) : Result := .next (s.skipIf (s.getV x != s.getV y))

/-- `SNE Vx, Vy`, the form of class 9 (R146). -/
def execSneVxVy (x y : Reg) (s : State) : Result := .next (s.skipIf (s.getV x != s.getV y))

end Sys2Proof.Machine
end

