-- ==== Sys2Proof/Machine/Unsupported.lean ====
section
/-! DEFINITION. The seven extension opcodes the hardware recognises and reports (46_unsupported.md). Each ends
the run with UnsupportedOpcode(IR): DIAG and STATUS are written and nothing else (R278, R302). -/

namespace Sys2Proof.Machine

/-- `SCD n` (R270). -/
def execScd (_n : Count) (s : State) : Result := .next s.raiseUnsupported

/-- `SCR` (R271). -/
def execScr (s : State) : Result := .next s.raiseUnsupported

/-- `SCL` (R272). -/
def execScl (s : State) : Result := .next s.raiseUnsupported

/-- `EXIT`: UnsupportedOpcode, not Halt (R273). -/
def execExit (s : State) : Result := .next s.raiseUnsupported

/-- `LOW` (R274). -/
def execLow (s : State) : Result := .next s.raiseUnsupported

/-- `HIGH` (R275). -/
def execHigh (s : State) : Result := .next s.raiseUnsupported

/-- `LD A, Vx` (R276). -/
def execLdAVx (_x : Reg) (s : State) : Result := .next s.raiseUnsupported

end Sys2Proof.Machine
end

