-- ==== Sys2Proof/Machine/Events.lean ====
section
/-! DEFINITION. The atomic events of the block's boundary: a scheduled step, the tick, the key event, the halt
request, reset and the load port (00_scope.md R9, R10; 60_exceptions.md R305 to R314). -/

namespace Sys2Proof.Machine

/-- Fetch, advance, decode, run the body; a word that is no instruction raises InvalidOpcode (R13, R277). -/
def State.runInstruction (s : State) : Result :=
  match decode s.fetch.ir with
  | .ok i => exec i s.fetch
  | .error _ => .next s.fetch.raiseInvalid

/-- `halt_req` at a step boundary: STATUS becomes 2 if the run is not over, and nothing else changes; an
unfinished key wait is abandoned (R305, R307). -/
def State.haltRequest (s : State) : State := if s.status.terminal then s else s.setStatus .halted

/-- A step that is scheduled samples the ports, and the first one closes the load port (R9, R344). -/
def State.sample (s : State) (p : Pins) : State := { s with pins := p, loadOpen := false }

/-- The host schedules a step (`step_en`) with these port values. A halt request present then wins
over the step (R306). The executor takes the step only in STATUS Running; in the key wait and after a terminal
outcome nothing is fetched (R9, R243, R307). -/
def State.stepEvent (s : State) (p : Pins) : Result :=
  if p.haltReq then .next (s.sample p).haltRequest
  else if s.status = .running then (s.sample p).runInstruction
  else .next (s.sample p)

/-- One timer towards 0; it does not wrap below 0 (R310). -/
def countDown (b : Byte) : Byte := if b = 0 then 0 else b - 1

/-- The tick: both timers, nothing else, in every STATUS (R310, R312). -/
def State.tickEvent (s : State) : State := { s with dt := countDown s.dt, st := countDown s.st }

/-- The key event, part 2 of `LD Vx, K`: enabled only in WaitKey; `V[X]`, X from the opcode in IR, takes the
key and the run goes on (R243). Offered at any other time it changes nothing (R314). -/
def State.keyEvent (s : State) (k : Key) : State :=
  if s.status = .waitKey then (s.setV (fieldX s.ir) (BitVec.ofNat 8 k.val)).setStatus .running else s

/-- `rst`: the reset state again, from any STATUS (R340). What the spec leaves unspecified is a
free value, of the draw and of the old contents (log 2); the host's further events are kept. -/
def State.resetEvent (s : State) : State :=
  { State.reset with
    rpl := Config.rplReset s.draws s.rpl
    disp := Config.dispReset s.draws s.disp
    ir := Config.irReset s.draws s.ir
    events := s.events
    pins := s.pins
    draws := s.draws + 1 }

/-- One byte through `mem_load` (R344). Outside the host's contract it is refused by name (U19; log 8). -/
def State.loadEvent (s : State) (a : Addr) (b : Byte) : Result :=
  if !s.loadOpen then .refused .loadDuringRun
  else if a < programBase then .refused .loadOutsideImage
  else .next (s.setMem (Memory.write s.mem a b))

/-- What one event does. -/
def State.handle (s : State) : Event → Result
  | .step p => s.stepEvent p
  | .tick => .next s.tickEvent
  | .key k => .next (s.keyEvent k)
  | .halt => .next s.haltRequest
  | .reset => .next s.resetEvent
  | .load a b => s.loadEvent a b

/-- Whether the host's contract admits an event: a load only before the run, and in the program area (R344, D24;
log 8). -/
def State.admits (s : State) : Event → Bool
  | .load a _ => s.loadOpen && decide (programBase ≤ a)
  | .step _ => true
  | .tick => true
  | .key _ => true
  | .halt => true
  | .reset => true

/-- The event that comes when none is listed: any event the contract admits. The draw is free; a drawn load the
contract does not admit is read as a tick, so that the model breaks the contract nowhere by itself (log 6). -/
def State.drawnEvent (s : State) : Event :=
  if s.admits (Config.hostEvent s.draws) then Config.hostEvent s.draws else .tick

/-- The next event: the oldest listed one, or a drawn one when none is listed (R313; log 6). -/
def State.nextEvent (s : State) : Event := s.events.headD s.drawnEvent

/-- The state once the next event is taken from the list, or drawn. -/
def State.dequeue (s : State) : State :=
  { s with events := s.events.tail, draws := if s.events.isEmpty then s.draws + 1 else s.draws }

/-- Takes the next event, whole (R311, R313). -/
def State.takeEvent (s : State) : Result := s.dequeue.handle s.nextEvent

/-- Stores an opcode where the next fetch reads it, high byte at `PC` (R62). -/
def State.placeWord (s : State) (w : Word) : State :=
  s.setMem (Memory.write (Memory.write s.mem s.pc (highByte w)) (s.pc + 1) (lowByte w))

end Sys2Proof.Machine
end

