-- ==== Sys2Proof/Machine/Step.lean ====
section
/-! DEFINITION. One step of the machine: one atomic event (60_exceptions.md R311, R313). -/

namespace Sys2Proof.Machine

/-- One step: the oldest listed event, or a free one when none is listed (R313). -/
def step (s : State) : Host.Outcome State Fault Refusal := s.takeEvent

/-- `s` with the instruction of an opcode-table word stored where the next step fetches it, high byte first.
The next event must be a step that the executor takes, so STATUS becomes Running and the one listed event is a
step with free key lines, a free random byte and no halt request, which are one more draw (log 7, log 9). -/
def State.withFetchWord (s : State) (nbits w : Nat) : State :=
  { s.placeWord (BitVec.ofNat 16 (w % 2 ^ nbits)) with
    status := .running
    events := [.step (freePins s.draws)]
    draws := s.draws + 1 }

end Sys2Proof.Machine
end

