-- ==== Sys2Proof/Safety.lean ====
section
/-! DEFINITION. What claims about runs are stated with: the invariant every step keeps, the states in which the
next event is an instruction step, and the moves of the host that are outside its contract. -/

namespace Sys2Proof.Machine

/-- The seven recognised extension opcodes (30_encoding.md R98). -/
def isExtension : Instr → Bool
  | .scd _ | .scr | .scl | .exit | .low | .high | .ldAVx _ => true
  | _ => false

/-- The invariant of a state between events: memory is in canonical form; in the key wait `IR` still holds an
`Fx0A` opcode (10_state.md R42); after an opcode error DIAG holds the fetched word, and it is a word of the
reported kind (R41, R302). The widths of R44 hold by the types of the fields. -/
structure State.Inv (s : State) : Prop where
  memWf : Memory.wf s.mem = true
  waitOpcode : s.status = .waitKey → ∃ x, decode s.ir = .ok (.ldVxK x)
  unsupportedWord : s.status = .unsupported →
    s.diag = s.ir ∧ ∃ i, decode s.diag = .ok i ∧ isExtension i = true
  invalidWord : s.status = .invalid → s.diag = s.ir ∧ decode s.diag = .error (.invalidOpcode s.diag)

/-- The next event, listed or drawn, is an instruction step that the executor takes, and `s0` is the state before
its fetch: STATUS is Running, no halt request is present, the event is taken (`dequeue`), the ports are sampled and
the load port is closed (log 6 to 8). -/
def State.stepsFrom (s s0 : State) : Prop :=
  s.status = .running ∧ ∃ p, s.nextEvent = .step p ∧ p.haltReq = false ∧ s0 = s.dequeue.sample p

/-- The host offers a load outside its contract: after the run has started, or below 0x200 (R344, D24). -/
def State.loadBreach (s : State) : Prop :=
  ∃ a b, s.nextEvent = .load a b ∧ (s.loadOpen = false ∨ a < programBase)

/-- A step that answers a next state. -/
def State.safeStep (s : State) : Prop := ∃ t, step s = .next t

/-! ## What one instruction does, and that it does nothing else -/

/-- The instruction goes on to a next state, writes `V[x]` and changes nothing else at all. -/
def WritesRegister (i : Instr) (s : State) (x : Reg) (value : Byte) : Prop :=
  ∃ t, exec i s = .next t ∧ t.getV x = value ∧ (∀ r, r ≠ x → t.getV r = s.getV r) ∧ t = { s with v := t.v }

/-- The instruction goes on to a next state whose `VF` is the flag and whose `V[x]` is the result, unless `x` is
`VF` itself, and changes nothing else at all. -/
def WritesResultAndFlag (i : Instr) (s : State) (x : Reg) (result flag : Nat) : Prop :=
  ∃ t, exec i s = .next t ∧ (x ≠ 15 → (t.getV x).toNat = result) ∧ (t.getV 15).toNat = flag ∧
    (∀ r, r ≠ x → r ≠ 15 → t.getV r = s.getV r) ∧ t = { s with v := t.v }

/-- The instruction goes on to a next state, leaves this address in `PC` and changes nothing else at all. -/
def WritesPc (i : Instr) (s : State) (target : Nat) : Prop :=
  ∃ t, exec i s = .next t ∧ t.pc.toNat = target ∧ t = { s with pc := t.pc }

/-- The instruction goes on to a next state, leaves this address in `I` and changes nothing else at all. -/
def WritesIndex (i : Instr) (s : State) (value : Nat) : Prop :=
  ∃ t, exec i s = .next t ∧ t.i.toNat = value ∧ t = { s with i := t.i }

/-- The instruction goes on to a next state, stores these bytes at `I`, `I + 1`, … each mod 4096, leaves every
other byte of memory as it reads, and changes nothing else at all. -/
def StoresAtIndex (i : Instr) (s : State) (bytes : List Byte) : Prop :=
  ∃ t, exec i s = .next t ∧
    (∀ (k : Nat) (h : k < bytes.length), Memory.read t.mem (s.i + BitVec.ofNat 12 k) = bytes[k]) ∧
    (∀ a : Addr, bytes.length ≤ (a - s.i).toNat → Memory.read t.mem a = Memory.read s.mem a) ∧
    t = { s with mem := t.mem }

/-- What a draw of these sprite bytes does to the display, pixel by pixel, and when it reports a collision
(45_io.md R233): bit `7 - b` of sprite row `r` is drawn at row `(originY + r) mod 32`, column
`(originX + b) mod 64`. -/
def DrawsSprite (before after : Display) (hit : Bool) (originX originY : Byte) (bytes : List Byte) : Prop :=
  (∀ (r b : Nat) (hr : r < bytes.length), b < 8 →
    Display.pixel after (Fin.ofNat 32 (originY.toNat + r)) (Fin.ofNat 64 (originX.toNat + b)) =
      (Display.pixel before (Fin.ofNat 32 (originY.toNat + r)) (Fin.ofNat 64 (originX.toNat + b)) ^^
        bytes[r].getLsbD (7 - b))) ∧
  (∀ (y : Row) (x : Col),
    (∀ r b : Nat, r < bytes.length → b < 8 →
      ¬ (y.val = (originY.toNat + r) % 32 ∧ x.val = (originX.toNat + b) % 64)) →
    Display.pixel after y x = Display.pixel before y x) ∧
  (hit = true ↔ ∃ (r b : Nat) (hr : r < bytes.length), b < 8 ∧
    Display.pixel before (Fin.ofNat 32 (originY.toNat + r)) (Fin.ofNat 64 (originX.toNat + b)) = true ∧
    bytes[r].getLsbD (7 - b) = true)

end Sys2Proof.Machine
end

