-- ==== Sys2Proof/Certificates/Slice0/Obligations.lean ====
section
/-! DEFINITION. The statements about the model for the provers. Each docstring says what the statement
claims; OBLIGATIONS.json names the rule of the spec, and says `derived` where the spec marks the point as its own
decision or the clause is the model's. -/

open Sys2Proof
open Sys2Proof.Machine

/-! ## Encoding (30_encoding.md) -/

/-- Words written out from the opcode map decode to their instructions.
One word of each family of the opcode map (control flow, skip, arithmetic, extended arithmetic, memory, sprite,
unsupported) decodes to the instruction the map gives it, and 0x5004 to none. Some of the digits are the spec's
own choice (D5 to D9; log 1). -/
def Obligations.DecodeReadsWordsOfTheTable : Prop :=
  decode 0x00E0 = .ok .cls ∧
  decode 0x220A = .ok (.call 0x20A) ∧
  decode 0x5012 = .ok (.sltVxVy 0 1) ∧
  decode 0x8127 = .ok (.subnVxVy 1 2) ∧
  decode 0x9203 = .ok (.bcdVxVy 2 0) ∧
  decode 0xF155 = .ok (.ldMemVx 1) ∧
  decode 0xD125 = .ok (.drwVxVyN 1 2 5) ∧
  decode 0xF394 = .ok (.ldAVx 3) ∧
  decode 0x5004 = .error (.invalidOpcode 0x5004)

/-- Decoding the word of any instruction gives the instruction back, with every operand.
For every instruction of the table and every value of its operand fields, the decoder reads from the encoder's
word exactly that instruction: no bit of an operand is dropped. Many of the digits both sides use are the spec's
own choice (D4 to D9; log 1). -/
def Obligations.DecodeOfEncodeIsTheInstruction : Prop :=
  ∀ i : Instr, decode (encode i) = .ok i

/-- A word that decodes is the word of its instruction, but for the unused Y of the shifts.
If a word decodes to an instruction, encoding that instruction gives the word back; for SHR and SHL it gives the
word with 0 in the field Y, which they do not use. Many of the digits both sides use, those of SHR and SHL among
them, are the spec's own choice (D4 to D9; log 1). -/
def Obligations.EncodeOfDecodeIsTheWord : Prop :=
  ∀ (w : Word) (i : Instr), decode w = .ok i →
    encode i = w ∨ ((∃ x, i = .shrVx x ∨ i = .shlVx x) ∧ encode i = w &&& 0xFF0F)

/-- The decoder and the mask-and-match opcode table select the same line for every word.
The dispatch by class and low digits and the table of patterns and masks agree: a word decodes to an instruction
exactly when the line of that instruction matches it. So no two lines match one word. Many of the digits both
use are the spec's own choice (D4 to D9; log 1). -/
def Obligations.DecodeAgreesWithTheOpcodeTable : Prop :=
  ∀ w : Word,
    (∀ i, decode w = .ok i → ∃ row ∈ opcodeTable, row.mnemonic = mnemonicOf i ∧ w &&& row.mask = row.pattern) ∧
    (∀ row ∈ opcodeTable, w &&& row.mask = row.pattern → ∃ i, decode w = .ok i ∧ mnemonicOf i = row.mnemonic)

/-- The decoder rejects exactly the words the spec spells out as invalid, each by its own word.
A word is rejected exactly when it is in class 0 and not one of the listed words, or in class 5 or 9 with N from
4, or in class 8 with N in 8 to 13 or 15, or in class E or F with an NN that is not listed. Which words are left
over rests on decisions of the spec, followed under log 1: the match of class 0 on the whole word (D4), the
digits of classes 5 and 8 (D5, D6) and of class 9 (D7), Fx75 and Fx85 (D8), and the extension patterns 00Cn,
00FB, 00FC, 00FE, 00FF and Fx94 (D9, of which N7 warns). -/
def Obligations.InvalidWordsAreThoseTheSpecLists : Prop :=
  ∀ w : Word,
    let cls := w.toNat / 4096
    let n := w.toNat % 16
    let nn := w.toNat % 256
    (∀ e, decode w = .error e → e = .invalidOpcode w) ∧
    (decode w = .error (.invalidOpcode w) ↔
      (cls = 0 ∧ w.toNat ≠ 0x00E0 ∧ w.toNat ≠ 0x00EE ∧ ¬ (0x00C0 ≤ w.toNat ∧ w.toNat ≤ 0x00CF) ∧
        ¬ (0x00FB ≤ w.toNat ∧ w.toNat ≤ 0x00FF)) ∨
      (cls = 5 ∧ 4 ≤ n) ∨
      (cls = 8 ∧ ((8 ≤ n ∧ n ≤ 13) ∨ n = 15)) ∨
      (cls = 9 ∧ 4 ≤ n) ∨
      (cls = 14 ∧ nn ≠ 0x9E ∧ nn ≠ 0xA1) ∨
      (cls = 15 ∧ nn ∉ [0x07, 0x0A, 0x15, 0x18, 0x1E, 0x29, 0x30, 0x33, 0x55, 0x65, 0x75, 0x85, 0x94]))

/-- Fields a form does not use take part in neither decoding nor execution.
All 16 values of Y give the same SHR or SHL, which shifts V[X] in place; a class 0 word whose X nibble is not 0
is no instruction; in class E and F the low byte alone selects the form; JP V0 adds V[0] whatever nnn[11:8] is.
That class 0 counts as a whole word, and the digits of the shifts, are the decisions D4 and D5 of the spec, some
forms of class F rest on D8 and D9 (log 1). -/
def Obligations.UnusedFieldsTakeNoPart : Prop :=
  (∀ x y : Reg, decode (encXYN 8 x y 6) = .ok (.shrVx x) ∧ decode (encXYN 8 x y 14) = .ok (.shlVx x)) ∧
  (∀ (x : Reg) (s : State),
    WritesResultAndFlag (.shrVx x) s x ((s.getV x).toNat / 2) ((s.getV x).toNat % 2) ∧
    WritesResultAndFlag (.shlVx x) s x ((s.getV x).toNat * 2 % 256) ((s.getV x).toNat / 128)) ∧
  (∀ w : Word, w.toNat / 4096 = 0 → w.toNat / 256 % 16 ≠ 0 → decode w = .error (.invalidOpcode w)) ∧
  (∀ (cls : Nat) (x x' : Reg) (sub : Byte) (i : Instr), cls = 14 ∨ cls = 15 →
    decode (encXS cls x sub.toNat) = .ok i →
    ∃ i', decode (encXS cls x' sub.toNat) = .ok i' ∧ mnemonicOf i' = mnemonicOf i) ∧
  (∀ (nnn : Addr) (s : State), decode (encA 11 nnn) = .ok (.jpV0 nnn) ∧
    WritesPc (.jpV0 nnn) s ((nnn.toNat + (s.getV 0).toNat) % 4096))

/-! ## The step (00_scope.md R13, 60_exceptions.md) -/

/-- A step fetches two bytes high byte first, advances PC by 2 and runs the decoded instruction.
When STATUS is Running and the next event is a step without a halt request, and the two bytes at PC and PC + 1
(mod 4096, first byte high) decode to an instruction, the step is that instruction's meaning in the state whose
IR is the opcode and whose PC is advanced by 2. The state before the fetch is s with the port values sampled,
the load port closed and the event taken. The byte order and the address wrap are the spec's decisions D2 and D3
(log 1); that the next event is listed or drawn, and what is recorded before the fetch, is the model's form (log
6 to 8). -/
def Obligations.StepRunsTheDecodedInstruction : Prop :=
  ∀ (s s0 : State) (i : Instr), s.stepsFrom s0 →
    decode (wordOfBytes (Memory.read s0.mem s0.pc) (Memory.read s0.mem (s0.pc + 1))) = .ok i →
    step s = exec i { s0 with ir := wordOfBytes (Memory.read s0.mem s0.pc) (Memory.read s0.mem (s0.pc + 1))
                              pc := s0.pc + 2 }

/-- The opcode is MEM[PC] * 256 + MEM[(PC+1) mod 4096], at an even or odd PC.
The fetched opcode has the byte at PC as its high byte and the byte at (PC + 1) mod 4096 as its low byte, for
every PC, and PC advances by 2 mod 4096. The order of the bytes is the spec's decision D2, the wrap and the
missing alignment rule D3 (log 1). -/
def Obligations.FetchedWordIsBigEndian : Prop :=
  ∀ s : State, ∃ lo : Addr, lo.toNat = (s.pc.toNat + 1) % 4096 ∧
    s.fetchWord.toNat = (Memory.read s.mem s.pc).toNat * 256 + (Memory.read s.mem lo).toNat ∧
    s.fetch.ir = s.fetchWord ∧ s.fetch.pc.toNat = (s.pc.toNat + 2) % 4096

/-- A word that matches no line of the table ends the run with InvalidOpcode and changes nothing else.
If the fetched word matches no line of the opcode table, the step goes on to the state in which DIAG holds the
word, STATUS is Invalid, IR holds the word, PC is advanced by 2, and nothing else is changed against s0. That
s0, the state before the fetch, has the event taken, the ports sampled and the load port closed is the model's
choice (log 6 to 8). Which words match no line rests on the spec's decisions D4 to D9 (log 1). That a terminal
outcome is a next state is log 10 (deduced). -/
def Obligations.WordWithoutRowRaisesInvalidOpcode : Prop :=
  ∀ (s s0 : State), s.stepsFrom s0 →
    (∀ row ∈ opcodeTable, s0.fetchWord &&& row.mask ≠ row.pattern) →
    step s = .next { s0 with ir := s0.fetchWord, pc := s0.pc + 2, diag := s0.fetchWord, status := .invalid }

/-- Unsupported and invalid words change IR, PC by the advance, DIAG and STATUS, and end the run.
A step that fetches one of the seven extension opcodes, or a word that is no instruction, writes the word to IR
and DIAG, advances PC by 2, sets STATUS to 3 or 4, and changes nothing else; after it a scheduled step, listed
or drawn, runs no instruction. That such a step answers a next state which records the taken event, the sampled
ports and the closed load port is the model's choice (log 6, 7, 8, 10); that the outcome itself is a next state
is log 10 as well (deduced); the code numbers are the spec's decision D26. Which words are extensions and which
are invalid rests on the spec's decisions D4 to D9 (log 1). -/
def Obligations.OpcodeErrorsWriteDiagAndStatusOnly : Prop :=
  (∀ (s s0 : State), s.stepsFrom s0 →
    ((∃ i, decode s0.fetchWord = .ok i ∧ isExtension i = true) →
      step s = .next { s0 with ir := s0.fetchWord, pc := s0.pc + 2, diag := s0.fetchWord, status := .unsupported }) ∧
    ((∃ e, decode s0.fetchWord = .error e) →
      step s = .next { s0 with ir := s0.fetchWord, pc := s0.pc + 2, diag := s0.fetchWord, status := .invalid })) ∧
  Status.unsupported.code = 3 ∧ Status.invalid.code = 4 ∧
  (∀ (t : State) (p : Pins), t.status = .unsupported ∨ t.status = .invalid → t.nextEvent = .step p →
    step t = .next { t.dequeue with pins := p, loadOpen := false })

/-- EXIT (0x00FD) ends the run with UnsupportedOpcode, not Halt.
The word 0x00FD is EXIT; executing it sets DIAG to the opcode in IR and STATUS to Unsupported and changes
nothing else; a step that fetches 0x00FD ends with DIAG = 0x00FD, STATUS Unsupported and PC advanced by 2. That
the state before the fetch has the event taken, the ports sampled and the load port closed is the model's choice
(log 6 to 8). That a terminal outcome is a next state is log 10 (deduced). -/
def Obligations.ExitIsUnsupportedNotHalt : Prop :=
  decode 0x00FD = .ok .exit ∧
  (∀ s : State, exec .exit s = .next { s with diag := s.ir, status := .unsupported }) ∧
  (∀ (s s0 : State), s.stepsFrom s0 → s0.fetchWord = 0x00FD →
    step s = .next { s0 with ir := 0x00FD, pc := s0.pc + 2, diag := 0x00FD, status := .unsupported })

/-- Each of the seven extension instructions raises UnsupportedOpcode(IR).
SCD n, SCR, SCL, EXIT, LOW, HIGH and LD A, Vx, whatever their operand, go on to the state in which DIAG holds
the opcode of IR and STATUS is Unsupported; nothing else changes: no scroll, no mode switch, no index load. Six
of the patterns are the spec's decision D9 (log 1). That a terminal outcome is a next state is log 10 (deduced). -/
def Obligations.ExtensionOpcodesRaiseUnsupported : Prop :=
  ∀ (s : State) (n : Count) (x : Reg), ∀ i ∈ [Instr.scd n, .scr, .scl, .exit, .low, .high, .ldAVx x],
    exec i s = .next { s with diag := s.ir, status := .unsupported }

/-- Every instruction answers a next state, and its STATUS is the one the spec gives.
From every state every instruction goes on to a next state: no operand value stops the machine. STATUS becomes
Unsupported for the seven extensions and WaitKey for LD Vx, K; every other instruction leaves it alone. The form
of the key wait is the spec's decision D19 (log 1). That a terminal outcome is a next state is log 10 (deduced).
That no opcode halts is D10, which opcodes are extensions D9, and that no address, digit or key number in a
register is refused D3, D14 and D18 (log 1). -/
def Obligations.EveryInstructionGoesOn : Prop :=
  ∀ (i : Instr) (s : State), ∃ t, exec i s = .next t ∧
    t.status = if isExtension i then .unsupported
      else match i with
        | .ldVxK _ => .waitKey
        | _ => s.status

/-- A step goes on from every state but one in which the host loads outside its contract.
The machine answers a next state exactly when the next event is not a load after the run has started or below
0x200; an event that is drawn, because none is listed, is never such a load. That these two host moves are
refused is the model's reading of D24 and U19 (log 1, log 8), that a drawn event keeps to the contract is log 6.
That a step scheduled in the key wait or after a terminal outcome answers a next state too, and that the
terminal outcomes are themselves next states, is log 10 (deduced). -/
def Obligations.StepStopsOnlyOnHostBreach : Prop :=
  (∀ s : State, s.safeStep ↔ ¬ s.loadBreach) ∧
  (∀ s : State, s.events = [] → s.safeStep)

/-- How each instruction leaves PC, and that only CALL copies it.
With PC already advanced past the instruction: JP, CALL, RET and JP V0 set it; a skip whose condition holds adds
2; every other instruction, the raising ones and LD Vx, K included, leaves it; while waiting it is held. In no
instruction but CALL does anything but PC itself depend on PC: no register, no memory byte, no timer, no pixel,
no entry of the bank takes a copy; CALL copies it to the stack alone. The unsigned order of SGT and SLT is the
decision D28 of the spec, the key number mod 16 D18, the form of the wait D19; a step that is listed or drawn is
the form of the model (log 6). That a step scheduled in the key wait answers a next state is log 10 (deduced);
the decisions of the spec are followed under log 1, C2 among them for PC in the wait. -/
def Obligations.PcAfterEachInstruction : Prop :=
  (∀ (i : Instr) (s : State), ∃ t, exec i s = .next t ∧
    t.pc = match i with
      | .jp nnn => nnn
      | .call nnn => nnn
      | .ret => s.stack[(s.sp - 1).toNat]'(s.sp - 1).isLt
      | .jpV0 nnn => nnn + (s.getV 0).setWidth 12
      | .seVxKk x kk => if s.getV x = kk then s.pc + 2 else s.pc
      | .sneVxKk x kk => if s.getV x ≠ kk then s.pc + 2 else s.pc
      | .seVxVy x y => if s.getV x = s.getV y then s.pc + 2 else s.pc
      | .sneVxVy x y => if s.getV x ≠ s.getV y then s.pc + 2 else s.pc
      | .sne5VxVy x y => if s.getV x ≠ s.getV y then s.pc + 2 else s.pc
      | .sgtVxVy x y => if s.getV x > s.getV y then s.pc + 2 else s.pc
      | .sltVxVy x y => if s.getV x < s.getV y then s.pc + 2 else s.pc
      | .skpVx x => if s.pins.keys.getLsbD ((s.getV x).toNat % 16) then s.pc + 2 else s.pc
      | .sknpVx x => if s.pins.keys.getLsbD ((s.getV x).toNat % 16) then s.pc else s.pc + 2
      | _ => s.pc) ∧
  (∀ (i : Instr) (s t u : State) (p : Addr), (∀ nnn, i ≠ .call nnn) →
    exec i s = .next t → exec i { s with pc := p } = .next u → u = { t with pc := u.pc }) ∧
  (∀ (s t u : State) (nnn p : Addr),
    exec (.call nnn) s = .next t → exec (.call nnn) { s with pc := p } = .next u → u = { t with stack := u.stack }) ∧
  (∀ (s : State) (nnn : Addr), ∃ t, exec (.call nnn) s = .next t ∧ t.stack[s.sp.toNat]'s.sp.isLt = s.pc) ∧
  (∀ (s : State) (p : Pins), s.status = .waitKey → s.nextEvent = .step p → ∃ t, step s = .next t ∧ t.pc = s.pc)

/-! ## Reset and the invariant (70_reset_and_hazards.md, 10_state.md) -/

/-- The values the spec gives for reset, memory included.
After reset every general register, stack entry, I, SP, DT, ST, KRM and DIAG is 0, PC is 0x200, STATUS is
Running, the tone is off; memory holds the small font at 0 to 79, NLARGE large glyphs of 10 bytes from 80, and 0
above. KRM, STATUS and DIAG, and that I and SP count as registers, are the spec's decision D23 (log 1), the form
of the tone D21, the fonts are parameters (D15; log 3, log 4). RPL, DISP and IR are free values and nothing is
said of them. -/
def Obligations.ResetLeavesTheStatedValues : Prop :=
  (∀ r, State.reset.getV r = 0) ∧ (∀ k : Fin 16, State.reset.stack[k] = 0) ∧
  State.reset.i = 0 ∧ State.reset.sp = 0 ∧ State.reset.dt = 0 ∧ State.reset.st = 0 ∧
  State.reset.pc = 0x200 ∧ State.reset.krm = 0 ∧ State.reset.status = .running ∧ State.reset.diag = 0 ∧
  State.reset.toneEn = false ∧
  (∀ a : Addr, a.toNat < 80 → Memory.read State.reset.mem a = Config.fontSmall.getD a.toNat 0) ∧
  (∀ a : Addr, 80 ≤ a.toNat → a.toNat < 80 + 10 * Config.nLarge →
    Memory.read State.reset.mem a = Config.fontLarge (a.toNat - 80)) ∧
  (∀ a : Addr, 80 + 10 * Config.nLarge ≤ a.toNat → Memory.read State.reset.mem a = 0) ∧
  (Config.nLarge = 10 ∨ Config.nLarge = 16)

/-- rst gives the reset state from any state, but for what the spec leaves unspecified.
In any STATUS the event rst goes on to the reset state; RPL, DISP and IR are unspecified (log 2), and the events
still to come, the last port values and the count of draws are the model's own fields (log 6, log 7). The port
rst and the values of D23 are the spec's decisions (log 1); that reset opens the load port again is log 8. -/
def Obligations.ResetEventGivesTheResetState : Prop :=
  ∀ s : State, s.nextEvent = .reset →
    ∃ t, step s = .next t ∧
      t = { State.reset with
        rpl := t.rpl, disp := t.disp, ir := t.ir, events := s.dequeue.events, pins := s.pins, draws := t.draws }

/-- The reset state satisfies the invariant.
The state after reset has a canonical memory and satisfies what the invariant says of IR and DIAG in the key
wait and after an opcode error. STATUS after reset is the spec's decision D23 (log 1); the canonical form of
memory is the model's. -/
def Obligations.ResetStateHasTheInvariant : Prop :=
  State.reset.Inv

/-- Every step keeps the invariant.
If memory is in canonical form, IR holds an Fx0A opcode while STATUS is WaitKey, and after an opcode error DIAG
equals IR and is a word of the reported kind, then the same holds after any step: instruction, tick, key, halt,
reset or load. The form of the key wait is the spec's decision D19, the words of either kind rest on D4 to D9
(log 1); the canonical form of memory is the model's. -/
def Obligations.EveryStepKeepsTheInvariant : Prop :=
  ∀ s t : State, s.Inv → step s = .next t → t.Inv

/-! ## Control flow (40_control_flow.md) -/

/-- CLS clears every pixel and nothing else.
CLS is the word 0x00E0; it uses the full-clear operation, every pixel is 0 afterwards, and PC, I, registers (VF
too), memory, timers and all else are unchanged. -/
def Obligations.ClsClearsEveryPixel : Prop :=
  decode 0x00E0 = .ok .cls ∧
  ∀ s : State, ∃ t, exec .cls s = .next t ∧ t.disp = Display.clear ∧ (∀ y x, Display.pixel t.disp y x = false) ∧
    t = { s with disp := t.disp }

/-- RET decrements SP mod 16, loads PC from the entry, and keeps the entry.
RET is the word 0x00EE; SP becomes SP - 1 mod 16 (15 from 0), PC the stack entry at the new SP; the entry and
everything else stay, and the machine goes on also when the stack is empty. -/
def Obligations.RetPopsTheStack : Prop :=
  decode 0x00EE = .ok .ret ∧
  ∀ s : State, ∃ t, exec .ret s = .next t ∧ t.sp.toNat = (s.sp.toNat + 15) % 16 ∧
    t.pc = s.stack[t.sp.toNat]'t.sp.isLt ∧ t = { s with sp := t.sp, pc := t.pc }

/-- JP nnn sets PC to nnn and nothing else.
JP nnn is the word 1nnn; PC becomes nnn, any of the 4096 addresses, and nothing is pushed or otherwise changed. -/
def Obligations.JpSetsPc : Prop :=
  ∀ (s : State) (nnn : Addr), decode (encA 1 nnn) = .ok (.jp nnn) ∧ exec (.jp nnn) s = .next { s with pc := nnn }

/-- CALL nnn stores the advanced PC at STACK[SP], increments SP mod 16 and jumps.
CALL nnn is the word 2nnn; the entry at SP takes the address after the CALL, no other entry changes, SP becomes
SP + 1 mod 16 (0 from 15), PC becomes nnn, and nothing else changes; a full stack is no error. -/
def Obligations.CallPushesTheReturnAddress : Prop :=
  ∀ (s : State) (nnn : Addr), decode (encA 2 nnn) = .ok (.call nnn) ∧
    ∃ t, exec (.call nnn) s = .next t ∧
      (∀ k : Fin 16, t.stack[k] = if k.val = s.sp.toNat then s.pc else s.stack[k]) ∧
      t.sp.toNat = (s.sp.toNat + 1) % 16 ∧ t.pc = nnn ∧ t = { s with stack := t.stack, sp := t.sp, pc := t.pc }

/-- JP V0, nnn sets PC to (nnn + V[0]) mod 4096.
JP V0, nnn is the word Bnnn; PC becomes the sum mod 4096 and nothing else changes, V[0] included; the X nibble
does not choose the register. -/
def Obligations.JpV0AddsRegisterZero : Prop :=
  ∀ (s : State) (nnn : Addr), decode (encA 11 nnn) = .ok (.jpV0 nnn) ∧
    WritesPc (.jpV0 nnn) s ((nnn.toNat + (s.getV 0).toNat) % 4096)

/-- A RET right after a CALL restores SP and resumes after the call, from every state.
From every state, a CALL and then a RET fetched at any address bring SP and PC back to their values before the
CALL; only the stack entry written by the CALL remains. The spec marks the property as derived (R125). The wrap
of SP at both ends is its resolution C5. -/
def Obligations.CallThenRetResumesAfterTheCall : Prop :=
  ∀ (s : State) (nnn p : Addr), ∃ t u, exec (.call nnn) s = .next t ∧ exec .ret { t with pc := p } = .next u ∧
    u.pc = s.pc ∧ u.sp = s.sp ∧ u = { s with stack := t.stack }

/-! ## Skips (41_skip.md) -/

/-- The seven register and immediate skips write PC only.
SE, SNE, SGT, SLT and both register forms of SNE add 2 mod 4096 to the advanced PC when the comparison of the
unsigned bytes holds, leave it otherwise, and change nothing else. Which comparison stands at which sub-opcode,
and that the order is unsigned, are the spec's decisions D5, D6 and D28 (log 1). -/
def Obligations.SkipsAddTwoToPcWhenTheConditionHolds : Prop :=
  ∀ (s : State) (x y : Reg) (kk : Byte),
    let vx := (s.getV x).toNat
    let vy := (s.getV y).toNat
    let skipped := (s.pc.toNat + 2) % 4096
    WritesPc (.seVxKk x kk) s (if vx = kk.toNat then skipped else s.pc.toNat) ∧
    WritesPc (.sneVxKk x kk) s (if vx ≠ kk.toNat then skipped else s.pc.toNat) ∧
    WritesPc (.seVxVy x y) s (if vx = vy then skipped else s.pc.toNat) ∧
    WritesPc (.sgtVxVy x y) s (if vx > vy then skipped else s.pc.toNat) ∧
    WritesPc (.sltVxVy x y) s (if vx < vy then skipped else s.pc.toNat) ∧
    WritesPc (.sne5VxVy x y) s (if vx ≠ vy then skipped else s.pc.toNat) ∧
    WritesPc (.sneVxVy x y) s (if vx ≠ vy then skipped else s.pc.toNat)

/-! ## Register load and arithmetic (42_alu.md, 43_ext_arith.md) -/

/-- LD, ADD immediate, OR, AND and XOR write V[X] only.
Each of the six instructions writes its value to V[X] and changes nothing else: no other register, VF included
unless X is 15, no flag, no memory. The meanings of LD and ADD with an immediate and that the logical operations
leave VF alone are the spec's decisions D5 and D11 (log 1). -/
def Obligations.LoadsAndLogicWriteOneRegister : Prop :=
  ∀ (s : State) (x y : Reg) (kk : Byte),
    WritesRegister (.ldVxKk x kk) s x kk ∧
    WritesRegister (.addVxKk x kk) s x (BitVec.ofNat 8 (((s.getV x).toNat + kk.toNat) % 256)) ∧
    WritesRegister (.ldVxVy x y) s x (s.getV y) ∧
    WritesRegister (.orVxVy x y) s x (s.getV x ||| s.getV y) ∧
    WritesRegister (.andVxVy x y) s x (s.getV x &&& s.getV y) ∧
    WritesRegister (.xorVxVy x y) s x (s.getV x ^^^ s.getV y)

/-- ADD, SUB, SUBN, SHR and SHL: results mod 256 and the flag in VF.
Addition leaves the sum mod 256 and the carry out of bit 7; a subtraction leaves the difference, plus 256 when
it borrows, and 1 in VF when the minuend is not less than the subtrahend; a shift moves one position, fills with
0 and leaves the lost bit in VF. VF is a full byte 0 or 1 and holds the flag also when X is 15; operands are the
old values; no instruction faults and nothing else changes. The result of SUBN is the decision D11 of the spec
(log 1). -/
def Obligations.ArithmeticLawsOfTheFamily : Prop :=
  ∀ (s : State) (x y : Reg),
    let a := (s.getV x).toNat
    let b := (s.getV y).toNat
    WritesResultAndFlag (.addVxVy x y) s x ((a + b) % 256) (if a + b > 255 then 1 else 0) ∧
    WritesResultAndFlag (.subVxVy x y) s x (if a ≥ b then a - b else a + 256 - b) (if a ≥ b then 1 else 0) ∧
    WritesResultAndFlag (.subnVxVy x y) s x (if b ≥ a then b - a else b + 256 - a) (if b ≥ a then 1 else 0) ∧
    WritesResultAndFlag (.shrVx x) s x (a / 2) (a % 2) ∧
    WritesResultAndFlag (.shlVx x) s x (2 * a % 256) (a / 128)

/-- Exactly nine instructions write VF as a side effect, with the listed values.
ADD, SUB, SUBN, SHR, SHL, MUL, DIV, ADD I and DRW write VF with the values of R33, whatever X is; every other
instruction leaves VF alone unless it is the destination V[X] with X = 15, or LD Vx, [I] with X = 15. (LD Vx, K
writes V[X] at the key event, not in its step.) These points are choices, followed under log 1: that OR, AND,
XOR and ADD Vx, kk leave VF alone is the spec's decision D11; that VF is written last, also in MUL and DIV with
X = 15, is D12 (N22 asks that it be named); the remainder for divisor 0 is the free DIV0 of D13 (log 5); that
ADD I writes 0 when the sum does not exceed 0xFFF is the choice of C7; that DRW with n = 0 writes 0 is D17. -/
def Obligations.FlagRuleForEveryInstruction : Prop :=
  (∀ (s : State) (x y : Reg) (n : Count),
    let a := (s.getV x).toNat
    let b := (s.getV y).toNat
    (∃ t, exec (.addVxVy x y) s = .next t ∧ (t.getV 15).toNat = if a + b > 255 then 1 else 0) ∧
    (∃ t, exec (.subVxVy x y) s = .next t ∧ (t.getV 15).toNat = if a ≥ b then 1 else 0) ∧
    (∃ t, exec (.subnVxVy x y) s = .next t ∧ (t.getV 15).toNat = if b ≥ a then 1 else 0) ∧
    (∃ t, exec (.shrVx x) s = .next t ∧ (t.getV 15).toNat = a % 2) ∧
    (∃ t, exec (.shlVx x) s = .next t ∧ (t.getV 15).toNat = a / 128) ∧
    (∃ t, exec (.mulVxVy x y) s = .next t ∧ (t.getV 15).toNat = a * b / 256 ∧ (t.getV 15).toNat ≤ 254) ∧
    (∃ t, exec (.divVxVy x y) s = .next t ∧
      (b ≠ 0 → (t.getV 15).toNat = a % b ∧ (t.getV 15).toNat ≤ 254) ∧
      (b = 0 → t.getV 15 = (Config.div0 (s.getV x)).2)) ∧
    (∃ t, exec (.addIVx x) s = .next t ∧ (t.getV 15).toNat = if s.i.toNat + a > 0xFFF then 1 else 0) ∧
    (∃ t, exec (.drwVxVyN x y n) s = .next t ∧
      (t.getV 15 = 1 ∨ t.getV 15 = 0) ∧
      (t.getV 15 = 1 ↔ ∃ row col, Display.pixel s.disp row col = true ∧ Display.pixel t.disp row col = false))) ∧
  (∀ (i : Instr) (s t : State), exec i s = .next t →
    (match i with
      | .addVxVy _ _ | .subVxVy _ _ | .subnVxVy _ _ | .shrVx _ | .shlVx _ | .mulVxVy _ _ | .divVxVy _ _
      | .addIVx _ | .drwVxVyN _ _ _ => True
      | .ldVxKk x _ | .addVxKk x _ | .ldVxVy x _ | .orVxVy x _ | .andVxVy x _ | .xorVxVy x _ | .rndVxKk x _
      | .ldVxDt x => x ≠ 15 → t.getV 15 = s.getV 15
      | .ldVxMem x => x ≠ 15 → t.getV 15 = s.getV 15
      | _ => t.getV 15 = s.getV 15))

/-- MUL is exact, DIV by a nonzero divisor is exact, BCD digits rebuild the word.
MUL leaves the low byte of the exact product in V[X] and the high byte in VF; DIV by a nonzero divisor leaves
quotient and remainder with a = q*b + r and r < b; DIV by 0 goes on with the two values of DIV0, of which
nothing is assumed; BCD stores five digits 0 to 9, most significant first at I, with w = d4*10000 + d3*1000 +
d2*100 + d1*10 + d0. With X = 15 VF keeps the high byte or the remainder. Nothing else changes and nothing
faults. That VF is written last and the form of DIV0 are the spec's decisions D12 and D13 (log 1, log 5); the
wrap of I + k in the BCD store, mod 4096, is its decision D3 (log 1). -/
def Obligations.MultiplyDivideAndBcdLaws : Prop :=
  ∀ (s : State) (x y : Reg),
    let a := (s.getV x).toNat
    let b := (s.getV y).toNat
    WritesResultAndFlag (.mulVxVy x y) s x (a * b % 256) (a * b / 256) ∧
    (x ≠ 15 → ∃ t, exec (.mulVxVy x y) s = .next t ∧ (t.getV 15).toNat * 256 + (t.getV x).toNat = a * b) ∧
    (b ≠ 0 → WritesResultAndFlag (.divVxVy x y) s x (a / b) (a % b) ∧
      (x ≠ 15 → ∃ t, exec (.divVxVy x y) s = .next t ∧
        a = (t.getV x).toNat * b + (t.getV 15).toNat ∧ (t.getV 15).toNat < b)) ∧
    (b = 0 → WritesResultAndFlag (.divVxVy x y) s x (Config.div0 (s.getV x)).1.toNat
      (Config.div0 (s.getV x)).2.toNat) ∧
    (∃ d4 d3 d2 d1 d0 : Nat, d4 < 10 ∧ d3 < 10 ∧ d2 < 10 ∧ d1 < 10 ∧ d0 < 10 ∧
      a * 256 + b = d4 * 10000 + d3 * 1000 + d2 * 100 + d1 * 10 + d0 ∧
      StoresAtIndex (.bcdVxVy x y) s ([d4, d3, d2, d1, d0].map (BitVec.ofNat 8)))

/-! ## Index, memory, auxiliary bank (44_mem_index.md, 20_memory.md) -/

/-- LD I, nnn sets I to nnn and nothing else.
LD I, nnn is the word Annn; I becomes nnn, any 12-bit value, and nothing else changes. -/
def Obligations.LoadIndexSetsI : Prop :=
  ∀ (s : State) (nnn : Addr), decode (encA 10 nnn) = .ok (.ldI nnn) ∧ exec (.ldI nnn) s = .next { s with i := nnn }

/-- ADD I, Vx leaves the sum mod 4096 in I and the overflow in VF.
I becomes I + V[X] mod 4096, VF 1 if the sum exceeds 0xFFF and 0 otherwise, computed from the old values also
when X is 15; no other register and nothing else changes. The full assignment of VF and its place in the order
are C7 and D12 (log 1). -/
def Obligations.AddIndexWrapsAndReportsOverflow : Prop :=
  ∀ (s : State) (x : Reg),
    let sum := s.i.toNat + (s.getV x).toNat
    ∃ t, exec (.addIVx x) s = .next t ∧ t.i.toNat = sum % 4096 ∧
      (t.getV 15).toNat = (if sum > 0xFFF then 1 else 0) ∧
      (∀ r, r ≠ 15 → t.getV r = s.getV r) ∧ t = { s with v := t.v, i := t.i }

/-- LD F and LD HF set I to 5 * V[X] and 80 + 10 * V[X].
For every byte in V[X], a digit or not, I becomes the product (no wrap is possible), and nothing else changes.
That the whole byte is used is the spec's decision D14 (log 1). -/
def Obligations.GlyphAddressesUseTheWholeByte : Prop :=
  ∀ (s : State) (x : Reg),
    WritesIndex (.ldFVx x) s (5 * (s.getV x).toNat) ∧ WritesIndex (.ldHfVx x) s (80 + 10 * (s.getV x).toNat)

/-- LD B, Vx stores hundreds, tens and ones at I, I + 1, I + 2.
The three decimal digits of V[X] are stored at I, I + 1 and I + 2 mod 4096, hundreds first; every other byte
reads as before; I, the registers and all else are unchanged (that I is unchanged the spec marks as derived).
The wrap of I + k mod 4096 is the spec's decision D3 (log 1). -/
def Obligations.LoadBcdStoresThreeDigits : Prop :=
  ∀ (s : State) (x : Reg),
    let v := (s.getV x).toNat
    StoresAtIndex (.ldBVx x) s ([v / 100, v / 10 % 10, v % 10].map (BitVec.ofNat 8))

/-- LD [I], Vx stores V[0] to V[X] at I upward and leaves I alone.
LD [I], Vx is the word Fx55; byte I + k mod 4096 takes V[k] for k = 0 to X, every other byte reads as before, I
is not advanced, and registers and all else are unchanged. The wrap of I + k is the decision D3 of the spec (log
1), that I is not advanced its resolution C4. -/
def Obligations.StoreRegistersWritesXPlusOneBytes : Prop :=
  ∀ (s : State) (x : Reg), decode (encXS 15 x 0x55) = .ok (.ldMemVx x) ∧
    ∃ t, exec (.ldMemVx x) s = .next t ∧
      (∀ k : Reg, k.val ≤ x.val → Memory.read t.mem (s.i + BitVec.ofNat 12 k.val) = s.getV k) ∧
      (∀ a : Addr, x.val + 1 ≤ (a - s.i).toNat → Memory.read t.mem a = Memory.read s.mem a) ∧
      t = { s with mem := t.mem }

/-- LD Vx, [I] loads V[0] to V[X] from I upward and leaves I alone.
LD Vx, [I] is the word Fx65; V[k] takes the byte at I + k mod 4096 for k = 0 to X, with X = 15 VF too; the other
registers, I, memory and all else are unchanged. Storing V[0..X] and loading as many registers back from the
same address, in any later state with that memory and I, gives the original values. The wrap of I + k is the
decision D3 of the spec (log 1), that I is not advanced its resolution C4. -/
def Obligations.LoadRegistersReadsXPlusOneBytes : Prop :=
  (∀ (s : State) (x : Reg), decode (encXS 15 x 0x65) = .ok (.ldVxMem x) ∧
    ∃ t, exec (.ldVxMem x) s = .next t ∧
      (∀ k : Reg, k.val ≤ x.val → t.getV k = Memory.read s.mem (s.i + BitVec.ofNat 12 k.val)) ∧
      (∀ k : Reg, x.val < k.val → t.getV k = s.getV k) ∧
      t = { s with v := t.v }) ∧
  (∀ (s u : State) (x : Reg), ∃ t, exec (.ldMemVx x) s = .next t ∧
    (u.mem = t.mem → u.i = s.i →
      ∃ w, exec (.ldVxMem x) u = .next w ∧ ∀ k : Reg, k.val ≤ x.val → w.getV k = s.getV k))

/-- LD R, Vx and LD Vx, R move (X+1) mod 4 entries and nothing else.
The first (X + 1) mod 4 registers go to, or come from, the same entries of the bank; no other entry, no other
register and nothing else changes; for X = 3, 7, 11, 15 nothing changes. The opcodes and the start at entry 0
are the spec's decision D8 (log 1), the count mod 4 its resolution C1. -/
def Obligations.AuxiliaryBankMovesLowTwoBitsOfCount : Prop :=
  ∀ (s : State) (x : Reg),
    (∃ t, exec (.ldRVx x) s = .next t ∧
      (∀ k : Fin 8, t.rpl[k] = if k.val < (x.val + 1) % 4 then s.getV (Fin.ofNat 16 k.val) else s.rpl[k]) ∧
      t = { s with rpl := t.rpl }) ∧
    (∃ t, exec (.ldVxR x) s = .next t ∧
      (∀ k : Reg, t.getV k = if k.val < (x.val + 1) % 4 then s.rpl[Fin.ofNat 8 k.val] else s.getV k) ∧
      t = { s with v := t.v })

/-- Stack, I, display, bank, KRM, timers, memory, DIAG and STATUS change only in the instructions that write them.
Over all instructions: only CALL writes the stack, CALL and RET SP; only LD I, ADD I, LD F and LD HF change I;
only CLS and DRW the display; only LD R the bank, and never its entries 3 to 7; only SKP and SKNP KRM, and no
bit of it is ever cleared; only LD DT and LD ST the timers; only BCD, LD B and LD [I] memory; only the seven
extensions DIAG; only those and LD Vx, K STATUS; none the instruction register or the inputs. That SKP and SKNP,
and no other instruction, update KRM is the spec's decision D18. That no opcode halts, so that STATUS has no
other writer, is its decision D10 (N5), that LD Vx, K enters the status WaitKey D19, which opcodes are
extensions D9; that the entries 3 to 7 of the bank are never written is the inference R30 marks as derived, from
the start at entry 0 of D8. All are followed under log 1. -/
def Obligations.EachPartIsWrittenByItsInstructionsOnly : Prop :=
  ∀ (i : Instr) (s t : State), exec i s = .next t →
    (t.stack = s.stack ∨ ∃ n, i = .call n) ∧
    (t.sp = s.sp ∨ i = .ret ∨ ∃ n, i = .call n) ∧
    (t.i = s.i ∨ (∃ n, i = .ldI n) ∨ ∃ x, i = .addIVx x ∨ i = .ldFVx x ∨ i = .ldHfVx x) ∧
    (t.disp = s.disp ∨ i = .cls ∨ ∃ x y n, i = .drwVxVyN x y n) ∧
    (t.rpl = s.rpl ∨ ∃ x, i = .ldRVx x) ∧
    (∀ k : Fin 8, 3 ≤ k.val → t.rpl[k] = s.rpl[k]) ∧
    (t.krm = s.krm ∨ ∃ x, i = .skpVx x ∨ i = .sknpVx x) ∧
    (∀ k : Fin 16, s.krm.getLsbD k.val = true → t.krm.getLsbD k.val = true) ∧
    (t.dt = s.dt ∨ ∃ x, i = .ldDtVx x) ∧
    (t.st = s.st ∨ ∃ x, i = .ldStVx x) ∧
    ((∀ a, Memory.read t.mem a = Memory.read s.mem a) ∨
      ∃ x y, i = .bcdVxVy x y ∨ i = .ldBVx x ∨ i = .ldMemVx x) ∧
    (t.diag = s.diag ∨ isExtension i = true) ∧
    (t.status = s.status ∨ isExtension i = true ∨ ∃ x, i = .ldVxK x) ∧
    t.ir = s.ir ∧ t.loadOpen = s.loadOpen ∧ t.events = s.events ∧ t.pins = s.pins ∧ t.draws = s.draws

/-- A store over the next instruction is what the next step fetches.
If LD [I], Vx with X at least 1 stores where PC already points, the next fetch reads V[0] and V[1] as the
opcode. The spec marks the property as derived (R72). That V[0] becomes the high byte is the spec's decision D2,
and the wrap where PC is 0xFFF is D3 (log 1). -/
def Obligations.StoreIsSeenByTheNextFetch : Prop :=
  ∀ (s : State) (x : Reg), 1 ≤ x.val → s.i = s.pc →
    ∃ t, exec (.ldMemVx x) s = .next t ∧ t.fetchWord = wordOfBytes (s.getV 0) (s.getV 1)

/-- A read returns the last byte written at that address, or the launch value.
Reading after a write gives the byte at the address written and the old byte everywhere else; in the reset
memory every address reads as its launch value (the fonts are log 3 and log 4); a write keeps the canonical form
(the model's own form of memory). -/
def Obligations.ReadGivesTheLastByteWritten : Prop :=
  (∀ (m : Memory) (a c : Addr) (b : Byte),
    Memory.read (Memory.write m a b) c = if c = a then b else Memory.read m c) ∧
  (∀ a : Addr, Memory.read State.reset.mem a = Memory.blank a.toNat) ∧
  (∀ (m : Memory) (a : Addr) (b : Byte), Memory.wf m = true → Memory.wf (Memory.write m a b) = true)

/-- Two memories in canonical form that read alike everywhere are the same list.
The canonical form is canonical: memories with the same 4096 bytes are equal data. The form is the model's own. -/
def Obligations.CanonicalMemoriesThatReadAlikeAreEqual : Prop :=
  ∀ m m' : Memory, Memory.wf m = true → Memory.wf m' = true →
    (∀ a : Addr, Memory.read m a = Memory.read m' a) → m = m'

/-! ## Random byte, sprites, keys, timers (45_io.md, 60_exceptions.md) -/

/-- RND Vx, kk writes the sampled byte AND kk.
For every byte on the port rnd in this step, V[X] takes that byte AND kk and nothing else changes. The byte is a
free input (D20; log 1), sampled once at the step (log 7). -/
def Obligations.RandomByteIsMasked : Prop :=
  ∀ (s : State) (x : Reg) (kk : Byte),
    WritesRegister (.rndVxKk x kk) s x (s.pins.rnd &&& kk)

/-- The sprite compositor: XOR, wraparound per pixel, one collision bit per call.
For any display, any two 8-bit origins and at most 15 bytes: bit 7 - b of byte r is XORed into the pixel at row
(originY + r) mod 32, column (originX + b) mod 64; every other pixel is unchanged; the answer is 1 exactly if
some pixel was 1 and was drawn with a 1 bit. -/
def Obligations.CompositorDrawsWithWrapAndReportsErasure : Prop :=
  ∀ (d : Display) (originX originY : Byte) (bytes : List Byte), bytes.length ≤ 15 →
    DrawsSprite d (Display.drawSprite d originX originY bytes).1 (Display.drawSprite d originX originY bytes).2
      originX originY bytes

/-- DRW draws n bytes from I at (V[X], V[Y]) and leaves the collision in VF.
The sprite is the n bytes at I, I + 1, … mod 4096, drawn at the old V[X], V[Y]; VF is 1 if a pixel was erased
and 0 otherwise, also for n = 0, which draws nothing; I, memory, the other registers and all else are unchanged.
That n = 0 draws nothing, that VF is written last, and that sprite addresses wrap mod 4096 are the spec's
decisions D17, D12 and D3 (log 1). -/
def Obligations.DrawReadsSpriteAtIndexAndSetsVf : Prop :=
  ∀ (s : State) (x y : Reg) (n : Count),
    ∃ (t : State) (bytes : List Byte) (hit : Bool), exec (.drwVxVyN x y n) s = .next t ∧
      bytes.length = n.val ∧
      (∀ (k : Nat) (h : k < bytes.length), bytes[k] = Memory.read s.mem (s.i + BitVec.ofNat 12 k)) ∧
      DrawsSprite s.disp t.disp hit (s.getV x) (s.getV y) bytes ∧
      t.getV 15 = (if hit then 1 else 0) ∧ (∀ r, r ≠ 15 → t.getV r = s.getV r) ∧
      t = { s with v := t.v, disp := t.disp }

/-- Drawing the same sprite twice at the same origin restores the display.
For every display, origin and sprite of at most 15 rows, the second draw gives the first display back; one of
the two draws reports a collision exactly if the sprite has a 1 bit; on a blank display it is the second one. A
sprite of no rows draws nothing by the spec's decision D17 (log 1). -/
def Obligations.DrawingTwiceRestoresTheDisplay : Prop :=
  ∀ (d : Display) (originX originY : Byte) (bytes : List Byte), bytes.length ≤ 15 →
    let first := Display.drawSprite d originX originY bytes
    let second := Display.drawSprite first.1 originX originY bytes
    second.1 = d ∧
    ((first.2 = true ∨ second.2 = true) ↔ ∃ b ∈ bytes, b ≠ 0) ∧
    ((∀ y x, Display.pixel d y x = false) → (second.2 = true ↔ ∃ b ∈ bytes, b ≠ 0))

/-- SKP and SKNP skip on the sampled key line and set its bit in KRM.
The key is V[X] mod 16; its line, as sampled in this step, decides the skip; its bit of KRM is set and no other
bit changes; nothing else changes. The reduction mod 16 and the update of KRM are the spec's decision D18 (log
1); that a line is sampled once at the step is log 7. -/
def Obligations.KeySkipsNoteTheKey : Prop :=
  ∀ (s : State) (x : Reg),
    let k := (s.getV x).toNat % 16
    let skipped := (s.pc.toNat + 2) % 4096
    (∃ t, exec (.skpVx x) s = .next t ∧
      t.pc.toNat = (if s.pins.keys.getLsbD k then skipped else s.pc.toNat) ∧
      (∀ j : Fin 16, t.krm.getLsbD j.val = (s.krm.getLsbD j.val || decide (j.val = k))) ∧
      t = { s with pc := t.pc, krm := t.krm }) ∧
    (∃ t, exec (.sknpVx x) s = .next t ∧
      t.pc.toNat = (if s.pins.keys.getLsbD k then s.pc.toNat else skipped) ∧
      (∀ j : Fin 16, t.krm.getLsbD j.val = (s.krm.getLsbD j.val || decide (j.val = k))) ∧
      t = { s with pc := t.pc, krm := t.krm })

/-- LD Vx, DT reads and LD DT, Vx writes the delay timer.
LD Vx, DT is the word Fx07 and writes DT, as it is at this step, to V[X] and changes nothing else; LD DT, Vx is
the word Fx15 and writes V[X] to DT and changes nothing else. No instruction reads ST: what ST holds changes
nothing that an instruction does to the rest of the state. That every instruction, the seven extensions
included, answers a next state there is log 10 (deduced). -/
def Obligations.DelayTimerMoves : Prop :=
  ∀ (s : State) (x : Reg),
    decode (encXS 15 x 0x07) = .ok (.ldVxDt x) ∧ WritesRegister (.ldVxDt x) s x s.dt ∧
    decode (encXS 15 x 0x15) = .ok (.ldDtVx x) ∧ exec (.ldDtVx x) s = .next { s with dt := s.getV x } ∧
    (∀ (i : Instr) (b : Byte), ∃ t u, exec i s = .next t ∧ exec i { s with st := b } = .next u ∧
      u = { t with st := u.st })

/-- LD ST, Vx sets ST, and the tone is on exactly while ST is not 0.
LD ST, Vx writes V[X] to ST and changes nothing else; the output tone_en is 1 exactly while ST is not 0, in
every state. The level form of the output is the spec's decision D21 (log 1). -/
def Obligations.SoundTimerDrivesTheTone : Prop :=
  (∀ (s : State) (x : Reg), exec (.ldStVx x) s = .next { s with st := s.getV x }) ∧
  (∀ s : State, s.toneEn = true ↔ s.st.toNat ≠ 0)

/-- LD Vx, K waits with PC past it, and the key event writes V[X] and resumes.
LD Vx, K enters the key wait and changes only STATUS. A step that fetches Fx0A leaves PC past it and STATUS
WaitKey; a key event then writes the key to V[X], sets STATUS to Running and changes nothing else, KRM and PC
included. The form of the wait is the spec's decision D19 (log 1). That the state before the fetch has the event
taken, the ports sampled and the load port closed, and that the key event is here the oldest listed one and is
taken from the list, is the model's choice (log 6, 7, 8); which event comes next in general is
StepTakesTheNextEventWhole. -/
def Obligations.KeyWaitTakesTheKeyIntoItsRegister : Prop :=
  (∀ (s : State) (x : Reg), exec (.ldVxK x) s = .next { s with status := .waitKey }) ∧
  (∀ (s s0 : State) (x : Reg) (k : Key) (es : Schedule), s.stepsFrom s0 → s0.fetchWord = encXS 15 x 0x0A →
    ∃ t u, step s = .next t ∧
      t = { s0 with ir := encXS 15 x 0x0A, pc := s0.pc + 2, status := .waitKey } ∧
      step { t with events := .key k :: es } = .next u ∧
      (u.getV x).toNat = k.val ∧ (∀ r, r ≠ x → u.getV r = s0.getV r) ∧
      u = { t with v := u.v, status := .running, events := es })

/-- In the key wait nothing is fetched, and ticks count the timers down.
While STATUS is WaitKey a tick decrements each nonzero timer and changes nothing else, and a scheduled step
takes no instruction; both whether the event is listed or drawn. LD Vx, K reads neither timer. The form of the
wait is the spec's decision D19 (log 1). That a step in the wait answers a next state which records the taken
event, the sampled ports and the closed load port is the model's choice (log 6, 7, 8, 10). -/
def Obligations.WaitHoldsAndTicksRunInIt : Prop :=
  (∀ s : State, s.status = .waitKey → s.nextEvent = .tick →
    ∃ t, step s = .next t ∧ t.dt.toNat = s.dt.toNat - 1 ∧ t.st.toNat = s.st.toNat - 1 ∧
      t = { s.dequeue with dt := t.dt, st := t.st }) ∧
  (∀ (s : State) (p : Pins), s.status = .waitKey → s.nextEvent = .step p → p.haltReq = false →
    step s = .next { s.dequeue with pins := p, loadOpen := false }) ∧
  (∀ (s : State) (x : Reg) (d e : Byte),
    exec (.ldVxK x) { s with dt := d, st := e } = .next { s with dt := d, st := e, status := .waitKey })

/-- A tick decrements each nonzero timer in every STATUS and changes nothing else.
In every STATUS, terminal ones included, a tick takes 1 from each timer that is not 0 (natural subtraction: a
timer at 0 stays 0), never moves PC and changes nothing else. That ticks go on after the run is the spec's
decision D22 (log 1), that the machine has a next state there is log 10 (deduced); that the tick is taken from
the list or drawn (dequeue) is log 6. -/
def Obligations.TickCountsBothTimersDown : Prop :=
  ∀ s : State, s.nextEvent = .tick →
    ∃ t, step s = .next t ∧ t.dt.toNat = s.dt.toNat - 1 ∧ t.st.toNat = s.st.toNat - 1 ∧
      t = { s.dequeue with dt := t.dt, st := t.st }

/-- A halt request ends a live run with STATUS Halted, and wins over a step that is due.
A halt request while STATUS is Running or WaitKey sets STATUS to Halted and changes nothing else of the machine:
no register, and PC stays; present together with a scheduled step it wins and the word at PC is not fetched. The
cause of Halt and the priority are the spec's decisions D10 and D22 (log 1); that Halt is a next state is log 10
(deduced). That the step which the halt request beats still records the sampled ports and closes the load port
is the model's choice (log 7, log 8), as is the event taken (log 6). -/
def Obligations.HaltRequestEndsTheRunAndWins : Prop :=
  (∀ s : State, s.nextEvent = .halt → s.status = .running ∨ s.status = .waitKey →
    step s = .next { s.dequeue with status := .halted }) ∧
  (∀ (s : State) (p : Pins), s.nextEvent = .step p → p.haltReq = true →
    s.status = .running ∨ s.status = .waitKey →
    step s = .next { s.dequeue with status := .halted, pins := p, loadOpen := false })

/-- A terminal outcome is kept until reset: no instruction runs, and only timers (and a load before the run) change.
Entering an opcode error writes DIAG and STATUS and nothing else, entering Halt STATUS alone: no vector, no
push, no mode. With STATUS 2, 3 or 4, whether the next event is listed or drawn: a scheduled step runs no
instruction, a key event and a halt request change nothing, a tick counts the timers down, a load before the
first step of the run writes memory alone. So STATUS is kept until reset. What halts and that ticks go on are
the decisions D10 and D22 of the spec, the codes D26 (log 1). That such a step records the taken event, the
sampled ports and the closed load port, and when a load is admitted, is the choice of the model (log 6, 7, 8,
10). -/
def Obligations.TerminalStatusIsKeptUntilReset : Prop :=
  (∀ (i : Instr) (s : State), isExtension i = true → exec i s = .next { s with diag := s.ir, status := .unsupported }) ∧
  (∀ s : State, s.raiseInvalid = { s with diag := s.ir, status := .invalid }) ∧
  (∀ s : State, s.status.terminal = false → s.haltRequest = { s with status := .halted }) ∧
  (∀ s : State, s.status.terminal = true ↔ s.status.code = 2 ∨ s.status.code = 3 ∨ s.status.code = 4) ∧
  (∀ s : State, s.status.terminal = true →
    (∀ p, s.nextEvent = .step p → step s = .next { s.dequeue with pins := p, loadOpen := false }) ∧
    (∀ k, s.nextEvent = .key k → step s = .next s.dequeue) ∧
    (s.nextEvent = .halt → step s = .next s.dequeue) ∧
    (s.nextEvent = .tick → ∃ t, step s = .next t ∧ t.dt.toNat = s.dt.toNat - 1 ∧ t.st.toNat = s.st.toNat - 1 ∧
      t = { s.dequeue with dt := t.dt, st := t.st }) ∧
    (∀ a b, s.nextEvent = .load a b →
      (s.loadOpen = true ∧ ∃ t, step s = .next t ∧ t = { s.dequeue with mem := t.mem }) ∨
      ∃ r, step s = .refused r)) ∧
  (∀ s t : State, s.status.terminal = true → s.nextEvent ≠ .reset → step s = .next t →
    t.status = s.status ∧
    t = { s.dequeue with dt := t.dt, st := t.st, mem := t.mem, pins := t.pins, loadOpen := t.loadOpen })

/-- Key lines and the random byte matter only to SKP, SKNP and RND, a key event only in the wait.
Every instruction but SKP, SKNP and RND does the same whatever is on the input ports; SKP and SKNP depend on the
key lines only, RND on the random byte only; a key event outside the key wait changes nothing; and none of the
inputs diverts control (PC is not moved by a key event). The sampled ports and the taken event are the model's
form (log 6, log 7). PC in the key wait, which a key event leaves, is the spec's decision D19 with C2, the key
number mod 16 is D18, the random byte as an input D20 (log 1); that a key event after a terminal outcome answers
a next state is log 10 (deduced). -/
def Obligations.InputsMatterOnlyWhereTheyAreSampled : Prop :=
  (∀ (i : Instr) (s : State) (p : Pins),
    (∀ x, i ≠ .skpVx x) → (∀ x, i ≠ .sknpVx x) → (∀ x kk, i ≠ .rndVxKk x kk) →
    ∃ t, exec i s = .next t ∧ exec i { s with pins := p } = .next { t with pins := p }) ∧
  (∀ (s : State) (p : Pins) (x : Reg), p.keys = s.pins.keys →
    ∃ t u, exec (.skpVx x) s = .next t ∧ exec (.skpVx x) { s with pins := p } = .next { t with pins := p } ∧
      exec (.sknpVx x) s = .next u ∧ exec (.sknpVx x) { s with pins := p } = .next { u with pins := p }) ∧
  (∀ (s : State) (p : Pins) (x : Reg) (kk : Byte), p.rnd = s.pins.rnd →
    ∃ t, exec (.rndVxKk x kk) s = .next t ∧ exec (.rndVxKk x kk) { s with pins := p } = .next { t with pins := p }) ∧
  (∀ (s : State) (k : Key), s.status ≠ .waitKey → s.nextEvent = .key k → step s = .next s.dequeue) ∧
  (∀ (s : State) (k : Key), s.status = .waitKey → s.nextEvent = .key k → ∃ t, step s = .next t ∧ t.pc = s.pc)

/-- A load before the run stores its byte, and is refused once the run has started.
From reset to the first scheduled step a load at 0x200 or above writes its byte and nothing else; the first
scheduled step closes the port, and a load after it, or below 0x200, is refused. The refusals are the model's
reading of the host's duty in D24 (log 1, log 8); the taken event is log 6. -/
def Obligations.LoadPortFillsMemoryBeforeTheRun : Prop :=
  (∀ (s : State) (a : Addr) (b : Byte), s.nextEvent = .load a b → s.loadOpen = true → 0x200 ≤ a.toNat →
    ∃ t, step s = .next t ∧ (∀ c, Memory.read t.mem c = if c = a then b else Memory.read s.mem c) ∧
      t = { s.dequeue with mem := t.mem }) ∧
  (∀ (s : State) (a : Addr) (b : Byte), s.nextEvent = .load a b → s.loadOpen = false →
    step s = .refused .loadDuringRun) ∧
  (∀ (s : State) (a : Addr) (b : Byte), s.nextEvent = .load a b → s.loadOpen = true → a.toNat < 0x200 →
    step s = .refused .loadOutsideImage) ∧
  State.reset.loadOpen = true ∧
  (∀ (s t : State) (p : Pins), s.nextEvent = .step p → step s = .next t → t.loadOpen = false)

/-- KRM and DIAG influence no other state, whatever the event.
Two states that differ only in KRM and DIAG step, on any event, to states that differ at most in KRM and DIAG:
neither register can influence anything a program sees. The two states have the same list of events and the same
count of draws, so they take the same event, listed or drawn; that equal lists and counts draw equal events is
the model's choice (log 6), as is what a drawn event puts on the ports (log 7). What writes KRM, and that reset
clears both, are the spec's decisions D18 and D23 (log 1). -/
def Obligations.DiagnosticRegistersAreUnobservable : Prop :=
  ∀ (s t : State) (k : BitVec 16) (d : Word), step s = .next t →
    ∃ t', step { s with krm := k, diag := d } = .next t' ∧ t' = { t with krm := t'.krm, diag := t'.diag }

/-- A step takes the oldest listed event, and past the list any event the contract admits.
One step is one event, whole. A listed event is taken in order; when none is listed the next event is the free
value of this draw, so that any step, tick, key, halt request or reset can come next; a drawn load outside the
contract of the host is read as a tick. The list and the draw are the form the model gives to the free order of
R313 (log 6). The free order is the spec's decision D22 (log 1); which loads the contract admits is log 8, from
D24. -/
def Obligations.StepTakesTheNextEventWhole : Prop :=
  (∀ s : State, step s = s.dequeue.handle s.nextEvent) ∧
  (∀ (s : State) (e : Event) (es : Schedule), s.events = e :: es →
    s.nextEvent = e ∧ s.dequeue = { s with events := es }) ∧
  (∀ s : State, s.events = [] →
    s.nextEvent = (if s.admits (Config.hostEvent s.draws) then Config.hostEvent s.draws else .tick) ∧
    s.dequeue = { s with draws := s.draws + 1 }) ∧
  (∀ s : State, s.events = [] → s.admits s.nextEvent = true) ∧
  (∀ (s : State) (e : Event),
    s.admits e = false ↔ ∃ a b, e = .load a b ∧ (s.loadOpen = false ∨ a.toNat < 0x200))
end

