-- ==== Sys2Proof/Laws/Decode.lean ====
section
/-! SUPPORT. The value of each encoded word and the fields read back from it (30_encoding.md R91, R92). -/

namespace Sys2Proof

/-! ### The value of a word of each format -/

theorem toNat_encA {cls : Nat} (hc : cls < 16) (nnn : Addr) : (encA cls nnn).toNat = cls * 4096 + nnn.toNat := by
  have := nnn.isLt
  simp only [encA, BitVec.toNat_ofNat]
  omega

theorem toNat_encXK {cls : Nat} (hc : cls < 16) (x : Reg) (kk : Byte) :
    (encXK cls x kk).toNat = cls * 4096 + x.val * 256 + kk.toNat := by
  have := kk.isLt
  simp only [encXK, BitVec.toNat_ofNat]
  omega

theorem toNat_encXYN {cls : Nat} (hc : cls < 16) (x y : Reg) (n : Count) :
    (encXYN cls x y n).toNat = cls * 4096 + x.val * 256 + y.val * 16 + n.val := by
  simp only [encXYN, BitVec.toNat_ofNat]
  omega

theorem toNat_encXS {cls sub : Nat} (hc : cls < 16) (hs : sub < 256) (x : Reg) :
    (encXS cls x sub).toNat = cls * 4096 + x.val * 256 + sub := by
  simp only [encXS, BitVec.toNat_ofNat]
  omega

theorem toNat_encWN {top : Nat} (ht : top < 4096) (n : Count) : (encWN top n).toNat = top * 16 + n.val := by
  simp only [encWN, BitVec.toNat_ofNat]
  omega

/-! ### Fields from the value of a word -/

/-- The field X of a word of this value. -/
theorem fieldX_of_toNat {w : Word} {q r : Nat} {x : Reg} (h : w.toNat = (q * 16 + x.val) * 256 + r)
    (hr : r < 256) : fieldX w = x := by
  apply Fin.ext
  simp only [fieldX, Fin.val_ofNat]
  omega

/-- The field Y of a word of this value. -/
theorem fieldY_of_toNat {w : Word} {q r : Nat} {y : Reg} (h : w.toNat = (q * 16 + y.val) * 16 + r)
    (hr : r < 16) : fieldY w = y := by
  apply Fin.ext
  simp only [fieldY, Fin.val_ofNat]
  omega

/-- The field N of a word of this value. -/
theorem fieldN_of_toNat {w : Word} {q : Nat} {n : Count} (h : w.toNat = q * 16 + n.val) : fieldN w = n := by
  apply Fin.ext
  simp only [fieldN, Fin.val_ofNat]
  omega

/-- The field NN of a word of this value. -/
theorem fieldNN_of_toNat {w : Word} {q : Nat} {kk : Byte} (h : w.toNat = q * 256 + kk.toNat) : fieldNN w = kk := by
  apply BitVec.eq_of_toNat_eq
  have := kk.isLt
  simp only [fieldNN, BitVec.toNat_ofNat]
  omega

/-- The field NNN of a word of this value. -/
theorem fieldNNN_of_toNat {w : Word} {q : Nat} {nnn : Addr} (h : w.toNat = q * 4096 + nnn.toNat) :
    fieldNNN w = nnn := by
  apply BitVec.eq_of_toNat_eq
  have := nnn.isLt
  simp only [fieldNNN, BitVec.toNat_ofNat]
  omega

/-! ### Fields of an encoded word -/

theorem fieldNNN_encA {cls : Nat} (hc : cls < 16) (nnn : Addr) : fieldNNN (encA cls nnn) = nnn :=
  fieldNNN_of_toNat (toNat_encA hc nnn)

theorem fieldX_encXK {cls : Nat} (hc : cls < 16) (x : Reg) (kk : Byte) : fieldX (encXK cls x kk) = x :=
  fieldX_of_toNat (q := cls) (r := kk.toNat) (by rw [toNat_encXK hc]; ring) kk.isLt

theorem fieldNN_encXK {cls : Nat} (hc : cls < 16) (x : Reg) (kk : Byte) : fieldNN (encXK cls x kk) = kk :=
  fieldNN_of_toNat (q := cls * 16 + x.val) (by rw [toNat_encXK hc]; ring)

theorem fieldX_encXYN {cls : Nat} (hc : cls < 16) (x y : Reg) (n : Count) : fieldX (encXYN cls x y n) = x :=
  fieldX_of_toNat (q := cls) (r := y.val * 16 + n.val) (by rw [toNat_encXYN hc]; ring) (by omega)

theorem fieldY_encXYN {cls : Nat} (hc : cls < 16) (x y : Reg) (n : Count) : fieldY (encXYN cls x y n) = y :=
  fieldY_of_toNat (q := cls * 16 + x.val) (r := n.val) (by rw [toNat_encXYN hc]; ring) n.isLt

theorem fieldN_encXYN {cls : Nat} (hc : cls < 16) (x y : Reg) (n : Count) : fieldN (encXYN cls x y n) = n :=
  fieldN_of_toNat (q := (cls * 16 + x.val) * 16 + y.val) (by rw [toNat_encXYN hc]; ring)

theorem fieldX_encXS {cls sub : Nat} (hc : cls < 16) (hs : sub < 256) (x : Reg) :
    fieldX (encXS cls x sub) = x :=
  fieldX_of_toNat (q := cls) (r := sub) (by rw [toNat_encXS hc hs]; ring) hs

theorem fieldN_encWN {top : Nat} (ht : top < 4096) (n : Count) : fieldN (encWN top n) = n :=
  fieldN_of_toNat (q := top) (toNat_encWN ht n)

/-- The opcode of two bytes (20_memory.md R62). -/
theorem toNat_wordOfBytes (hi lo : Byte) : (wordOfBytes hi lo).toNat = hi.toNat * 256 + lo.toNat := by
  have := hi.isLt
  have := lo.isLt
  simp only [wordOfBytes, BitVec.toNat_ofNat]
  omega

/-- Splitting an opcode into its bytes and joining them gives it back. -/
@[simp] theorem wordOfBytes_split (w : Word) : wordOfBytes (highByte w) (lowByte w) = w := by
  apply BitVec.eq_of_toNat_eq
  have := w.isLt
  rw [toNat_wordOfBytes]
  simp only [highByte, lowByte, BitVec.toNat_ofNat]
  omega

/-! ### Decoding by class -/

/-- What the decoder does with a word whose class is known. -/
theorem decode_of_class {w : Word} {c : Nat} (h : w.toNat / 4096 = c) :
    decode w = match (generalizing := false) c with
      | 0x0 => decodeClass0 w
      | 0x1 => .ok (.jp (fieldNNN w))
      | 0x2 => .ok (.call (fieldNNN w))
      | 0x3 => .ok (.seVxKk (fieldX w) (fieldNN w))
      | 0x4 => .ok (.sneVxKk (fieldX w) (fieldNN w))
      | 0x5 => decodeClass5 w
      | 0x6 => .ok (.ldVxKk (fieldX w) (fieldNN w))
      | 0x7 => .ok (.addVxKk (fieldX w) (fieldNN w))
      | 0x8 => decodeClass8 w
      | 0x9 => decodeClass9 w
      | 0xA => .ok (.ldI (fieldNNN w))
      | 0xB => .ok (.jpV0 (fieldNNN w))
      | 0xC => .ok (.rndVxKk (fieldX w) (fieldNN w))
      | 0xD => .ok (.drwVxVyN (fieldX w) (fieldY w) (fieldN w))
      | 0xE => decodeClassE w
      | 0xF => decodeClassF w
      | _ => .error (.invalidOpcode w) := by
  subst h
  rfl

/-- The class of a word is one of 16 (R94). -/
theorem class_lt (w : Word) : w.toNat / 4096 < 16 := by
  have := w.isLt
  omega

end Sys2Proof
end

