-- ==== Sys2Proof/Laws/State.lean ====
section
/-! SUPPORT. The small lemmas of the state's update operations: one per field and update, all by definition, so
that no proof unfolds a record update; and how the compound updates are made of them. -/

namespace Sys2Proof.Machine

/-! ### setV -/
@[simp] theorem State.setV_v (s : State) (r : Reg) (b : Byte) : (s.setV r b).v = s.v.set r.val b r.isLt := rfl
@[simp] theorem State.setV_i (s : State) (r : Reg) (b : Byte) : (s.setV r b).i = s.i := rfl
@[simp] theorem State.setV_pc (s : State) (r : Reg) (b : Byte) : (s.setV r b).pc = s.pc := rfl
@[simp] theorem State.setV_sp (s : State) (r : Reg) (b : Byte) : (s.setV r b).sp = s.sp := rfl
@[simp] theorem State.setV_stack (s : State) (r : Reg) (b : Byte) : (s.setV r b).stack = s.stack := rfl
@[simp] theorem State.setV_dt (s : State) (r : Reg) (b : Byte) : (s.setV r b).dt = s.dt := rfl
@[simp] theorem State.setV_st (s : State) (r : Reg) (b : Byte) : (s.setV r b).st = s.st := rfl
@[simp] theorem State.setV_krm (s : State) (r : Reg) (b : Byte) : (s.setV r b).krm = s.krm := rfl
@[simp] theorem State.setV_rpl (s : State) (r : Reg) (b : Byte) : (s.setV r b).rpl = s.rpl := rfl
@[simp] theorem State.setV_mem (s : State) (r : Reg) (b : Byte) : (s.setV r b).mem = s.mem := rfl
@[simp] theorem State.setV_disp (s : State) (r : Reg) (b : Byte) : (s.setV r b).disp = s.disp := rfl
@[simp] theorem State.setV_status (s : State) (r : Reg) (b : Byte) : (s.setV r b).status = s.status := rfl
@[simp] theorem State.setV_diag (s : State) (r : Reg) (b : Byte) : (s.setV r b).diag = s.diag := rfl
@[simp] theorem State.setV_ir (s : State) (r : Reg) (b : Byte) : (s.setV r b).ir = s.ir := rfl
@[simp] theorem State.setV_loadOpen (s : State) (r : Reg) (b : Byte) : (s.setV r b).loadOpen = s.loadOpen := rfl
@[simp] theorem State.setV_events (s : State) (r : Reg) (b : Byte) : (s.setV r b).events = s.events := rfl
@[simp] theorem State.setV_pins (s : State) (r : Reg) (b : Byte) : (s.setV r b).pins = s.pins := rfl
@[simp] theorem State.setV_draws (s : State) (r : Reg) (b : Byte) : (s.setV r b).draws = s.draws := rfl

/-! ### setI -/
@[simp] theorem State.setI_v (s : State) (a : Addr) : (s.setI a).v = s.v := rfl
@[simp] theorem State.setI_i (s : State) (a : Addr) : (s.setI a).i = a := rfl
@[simp] theorem State.setI_pc (s : State) (a : Addr) : (s.setI a).pc = s.pc := rfl
@[simp] theorem State.setI_sp (s : State) (a : Addr) : (s.setI a).sp = s.sp := rfl
@[simp] theorem State.setI_stack (s : State) (a : Addr) : (s.setI a).stack = s.stack := rfl
@[simp] theorem State.setI_dt (s : State) (a : Addr) : (s.setI a).dt = s.dt := rfl
@[simp] theorem State.setI_st (s : State) (a : Addr) : (s.setI a).st = s.st := rfl
@[simp] theorem State.setI_krm (s : State) (a : Addr) : (s.setI a).krm = s.krm := rfl
@[simp] theorem State.setI_rpl (s : State) (a : Addr) : (s.setI a).rpl = s.rpl := rfl
@[simp] theorem State.setI_mem (s : State) (a : Addr) : (s.setI a).mem = s.mem := rfl
@[simp] theorem State.setI_disp (s : State) (a : Addr) : (s.setI a).disp = s.disp := rfl
@[simp] theorem State.setI_status (s : State) (a : Addr) : (s.setI a).status = s.status := rfl
@[simp] theorem State.setI_diag (s : State) (a : Addr) : (s.setI a).diag = s.diag := rfl
@[simp] theorem State.setI_ir (s : State) (a : Addr) : (s.setI a).ir = s.ir := rfl
@[simp] theorem State.setI_loadOpen (s : State) (a : Addr) : (s.setI a).loadOpen = s.loadOpen := rfl
@[simp] theorem State.setI_events (s : State) (a : Addr) : (s.setI a).events = s.events := rfl
@[simp] theorem State.setI_pins (s : State) (a : Addr) : (s.setI a).pins = s.pins := rfl
@[simp] theorem State.setI_draws (s : State) (a : Addr) : (s.setI a).draws = s.draws := rfl

/-! ### setPc -/
@[simp] theorem State.setPc_v (s : State) (a : Addr) : (s.setPc a).v = s.v := rfl
@[simp] theorem State.setPc_i (s : State) (a : Addr) : (s.setPc a).i = s.i := rfl
@[simp] theorem State.setPc_pc (s : State) (a : Addr) : (s.setPc a).pc = a := rfl
@[simp] theorem State.setPc_sp (s : State) (a : Addr) : (s.setPc a).sp = s.sp := rfl
@[simp] theorem State.setPc_stack (s : State) (a : Addr) : (s.setPc a).stack = s.stack := rfl
@[simp] theorem State.setPc_dt (s : State) (a : Addr) : (s.setPc a).dt = s.dt := rfl
@[simp] theorem State.setPc_st (s : State) (a : Addr) : (s.setPc a).st = s.st := rfl
@[simp] theorem State.setPc_krm (s : State) (a : Addr) : (s.setPc a).krm = s.krm := rfl
@[simp] theorem State.setPc_rpl (s : State) (a : Addr) : (s.setPc a).rpl = s.rpl := rfl
@[simp] theorem State.setPc_mem (s : State) (a : Addr) : (s.setPc a).mem = s.mem := rfl
@[simp] theorem State.setPc_disp (s : State) (a : Addr) : (s.setPc a).disp = s.disp := rfl
@[simp] theorem State.setPc_status (s : State) (a : Addr) : (s.setPc a).status = s.status := rfl
@[simp] theorem State.setPc_diag (s : State) (a : Addr) : (s.setPc a).diag = s.diag := rfl
@[simp] theorem State.setPc_ir (s : State) (a : Addr) : (s.setPc a).ir = s.ir := rfl
@[simp] theorem State.setPc_loadOpen (s : State) (a : Addr) : (s.setPc a).loadOpen = s.loadOpen := rfl
@[simp] theorem State.setPc_events (s : State) (a : Addr) : (s.setPc a).events = s.events := rfl
@[simp] theorem State.setPc_pins (s : State) (a : Addr) : (s.setPc a).pins = s.pins := rfl
@[simp] theorem State.setPc_draws (s : State) (a : Addr) : (s.setPc a).draws = s.draws := rfl

/-! ### setMem -/
@[simp] theorem State.setMem_v (s : State) (m : Memory) : (s.setMem m).v = s.v := rfl
@[simp] theorem State.setMem_i (s : State) (m : Memory) : (s.setMem m).i = s.i := rfl
@[simp] theorem State.setMem_pc (s : State) (m : Memory) : (s.setMem m).pc = s.pc := rfl
@[simp] theorem State.setMem_sp (s : State) (m : Memory) : (s.setMem m).sp = s.sp := rfl
@[simp] theorem State.setMem_stack (s : State) (m : Memory) : (s.setMem m).stack = s.stack := rfl
@[simp] theorem State.setMem_dt (s : State) (m : Memory) : (s.setMem m).dt = s.dt := rfl
@[simp] theorem State.setMem_st (s : State) (m : Memory) : (s.setMem m).st = s.st := rfl
@[simp] theorem State.setMem_krm (s : State) (m : Memory) : (s.setMem m).krm = s.krm := rfl
@[simp] theorem State.setMem_rpl (s : State) (m : Memory) : (s.setMem m).rpl = s.rpl := rfl
@[simp] theorem State.setMem_mem (s : State) (m : Memory) : (s.setMem m).mem = m := rfl
@[simp] theorem State.setMem_disp (s : State) (m : Memory) : (s.setMem m).disp = s.disp := rfl
@[simp] theorem State.setMem_status (s : State) (m : Memory) : (s.setMem m).status = s.status := rfl
@[simp] theorem State.setMem_diag (s : State) (m : Memory) : (s.setMem m).diag = s.diag := rfl
@[simp] theorem State.setMem_ir (s : State) (m : Memory) : (s.setMem m).ir = s.ir := rfl
@[simp] theorem State.setMem_loadOpen (s : State) (m : Memory) : (s.setMem m).loadOpen = s.loadOpen := rfl
@[simp] theorem State.setMem_events (s : State) (m : Memory) : (s.setMem m).events = s.events := rfl
@[simp] theorem State.setMem_pins (s : State) (m : Memory) : (s.setMem m).pins = s.pins := rfl
@[simp] theorem State.setMem_draws (s : State) (m : Memory) : (s.setMem m).draws = s.draws := rfl

/-! ### setDisp -/
@[simp] theorem State.setDisp_v (s : State) (d : Display) : (s.setDisp d).v = s.v := rfl
@[simp] theorem State.setDisp_i (s : State) (d : Display) : (s.setDisp d).i = s.i := rfl
@[simp] theorem State.setDisp_pc (s : State) (d : Display) : (s.setDisp d).pc = s.pc := rfl
@[simp] theorem State.setDisp_sp (s : State) (d : Display) : (s.setDisp d).sp = s.sp := rfl
@[simp] theorem State.setDisp_stack (s : State) (d : Display) : (s.setDisp d).stack = s.stack := rfl
@[simp] theorem State.setDisp_dt (s : State) (d : Display) : (s.setDisp d).dt = s.dt := rfl
@[simp] theorem State.setDisp_st (s : State) (d : Display) : (s.setDisp d).st = s.st := rfl
@[simp] theorem State.setDisp_krm (s : State) (d : Display) : (s.setDisp d).krm = s.krm := rfl
@[simp] theorem State.setDisp_rpl (s : State) (d : Display) : (s.setDisp d).rpl = s.rpl := rfl
@[simp] theorem State.setDisp_mem (s : State) (d : Display) : (s.setDisp d).mem = s.mem := rfl
@[simp] theorem State.setDisp_disp (s : State) (d : Display) : (s.setDisp d).disp = d := rfl
@[simp] theorem State.setDisp_status (s : State) (d : Display) : (s.setDisp d).status = s.status := rfl
@[simp] theorem State.setDisp_diag (s : State) (d : Display) : (s.setDisp d).diag = s.diag := rfl
@[simp] theorem State.setDisp_ir (s : State) (d : Display) : (s.setDisp d).ir = s.ir := rfl
@[simp] theorem State.setDisp_loadOpen (s : State) (d : Display) : (s.setDisp d).loadOpen = s.loadOpen := rfl
@[simp] theorem State.setDisp_events (s : State) (d : Display) : (s.setDisp d).events = s.events := rfl
@[simp] theorem State.setDisp_pins (s : State) (d : Display) : (s.setDisp d).pins = s.pins := rfl
@[simp] theorem State.setDisp_draws (s : State) (d : Display) : (s.setDisp d).draws = s.draws := rfl

/-! ### setRpl -/
@[simp] theorem State.setRpl_v (s : State) (r : RplBank) : (s.setRpl r).v = s.v := rfl
@[simp] theorem State.setRpl_i (s : State) (r : RplBank) : (s.setRpl r).i = s.i := rfl
@[simp] theorem State.setRpl_pc (s : State) (r : RplBank) : (s.setRpl r).pc = s.pc := rfl
@[simp] theorem State.setRpl_sp (s : State) (r : RplBank) : (s.setRpl r).sp = s.sp := rfl
@[simp] theorem State.setRpl_stack (s : State) (r : RplBank) : (s.setRpl r).stack = s.stack := rfl
@[simp] theorem State.setRpl_dt (s : State) (r : RplBank) : (s.setRpl r).dt = s.dt := rfl
@[simp] theorem State.setRpl_st (s : State) (r : RplBank) : (s.setRpl r).st = s.st := rfl
@[simp] theorem State.setRpl_krm (s : State) (r : RplBank) : (s.setRpl r).krm = s.krm := rfl
@[simp] theorem State.setRpl_rpl (s : State) (r : RplBank) : (s.setRpl r).rpl = r := rfl
@[simp] theorem State.setRpl_mem (s : State) (r : RplBank) : (s.setRpl r).mem = s.mem := rfl
@[simp] theorem State.setRpl_disp (s : State) (r : RplBank) : (s.setRpl r).disp = s.disp := rfl
@[simp] theorem State.setRpl_status (s : State) (r : RplBank) : (s.setRpl r).status = s.status := rfl
@[simp] theorem State.setRpl_diag (s : State) (r : RplBank) : (s.setRpl r).diag = s.diag := rfl
@[simp] theorem State.setRpl_ir (s : State) (r : RplBank) : (s.setRpl r).ir = s.ir := rfl
@[simp] theorem State.setRpl_loadOpen (s : State) (r : RplBank) : (s.setRpl r).loadOpen = s.loadOpen := rfl
@[simp] theorem State.setRpl_events (s : State) (r : RplBank) : (s.setRpl r).events = s.events := rfl
@[simp] theorem State.setRpl_pins (s : State) (r : RplBank) : (s.setRpl r).pins = s.pins := rfl
@[simp] theorem State.setRpl_draws (s : State) (r : RplBank) : (s.setRpl r).draws = s.draws := rfl

/-! ### setDt -/
@[simp] theorem State.setDt_v (s : State) (b : Byte) : (s.setDt b).v = s.v := rfl
@[simp] theorem State.setDt_i (s : State) (b : Byte) : (s.setDt b).i = s.i := rfl
@[simp] theorem State.setDt_pc (s : State) (b : Byte) : (s.setDt b).pc = s.pc := rfl
@[simp] theorem State.setDt_sp (s : State) (b : Byte) : (s.setDt b).sp = s.sp := rfl
@[simp] theorem State.setDt_stack (s : State) (b : Byte) : (s.setDt b).stack = s.stack := rfl
@[simp] theorem State.setDt_dt (s : State) (b : Byte) : (s.setDt b).dt = b := rfl
@[simp] theorem State.setDt_st (s : State) (b : Byte) : (s.setDt b).st = s.st := rfl
@[simp] theorem State.setDt_krm (s : State) (b : Byte) : (s.setDt b).krm = s.krm := rfl
@[simp] theorem State.setDt_rpl (s : State) (b : Byte) : (s.setDt b).rpl = s.rpl := rfl
@[simp] theorem State.setDt_mem (s : State) (b : Byte) : (s.setDt b).mem = s.mem := rfl
@[simp] theorem State.setDt_disp (s : State) (b : Byte) : (s.setDt b).disp = s.disp := rfl
@[simp] theorem State.setDt_status (s : State) (b : Byte) : (s.setDt b).status = s.status := rfl
@[simp] theorem State.setDt_diag (s : State) (b : Byte) : (s.setDt b).diag = s.diag := rfl
@[simp] theorem State.setDt_ir (s : State) (b : Byte) : (s.setDt b).ir = s.ir := rfl
@[simp] theorem State.setDt_loadOpen (s : State) (b : Byte) : (s.setDt b).loadOpen = s.loadOpen := rfl
@[simp] theorem State.setDt_events (s : State) (b : Byte) : (s.setDt b).events = s.events := rfl
@[simp] theorem State.setDt_pins (s : State) (b : Byte) : (s.setDt b).pins = s.pins := rfl
@[simp] theorem State.setDt_draws (s : State) (b : Byte) : (s.setDt b).draws = s.draws := rfl

/-! ### setSt -/
@[simp] theorem State.setSt_v (s : State) (b : Byte) : (s.setSt b).v = s.v := rfl
@[simp] theorem State.setSt_i (s : State) (b : Byte) : (s.setSt b).i = s.i := rfl
@[simp] theorem State.setSt_pc (s : State) (b : Byte) : (s.setSt b).pc = s.pc := rfl
@[simp] theorem State.setSt_sp (s : State) (b : Byte) : (s.setSt b).sp = s.sp := rfl
@[simp] theorem State.setSt_stack (s : State) (b : Byte) : (s.setSt b).stack = s.stack := rfl
@[simp] theorem State.setSt_dt (s : State) (b : Byte) : (s.setSt b).dt = s.dt := rfl
@[simp] theorem State.setSt_st (s : State) (b : Byte) : (s.setSt b).st = b := rfl
@[simp] theorem State.setSt_krm (s : State) (b : Byte) : (s.setSt b).krm = s.krm := rfl
@[simp] theorem State.setSt_rpl (s : State) (b : Byte) : (s.setSt b).rpl = s.rpl := rfl
@[simp] theorem State.setSt_mem (s : State) (b : Byte) : (s.setSt b).mem = s.mem := rfl
@[simp] theorem State.setSt_disp (s : State) (b : Byte) : (s.setSt b).disp = s.disp := rfl
@[simp] theorem State.setSt_status (s : State) (b : Byte) : (s.setSt b).status = s.status := rfl
@[simp] theorem State.setSt_diag (s : State) (b : Byte) : (s.setSt b).diag = s.diag := rfl
@[simp] theorem State.setSt_ir (s : State) (b : Byte) : (s.setSt b).ir = s.ir := rfl
@[simp] theorem State.setSt_loadOpen (s : State) (b : Byte) : (s.setSt b).loadOpen = s.loadOpen := rfl
@[simp] theorem State.setSt_events (s : State) (b : Byte) : (s.setSt b).events = s.events := rfl
@[simp] theorem State.setSt_pins (s : State) (b : Byte) : (s.setSt b).pins = s.pins := rfl
@[simp] theorem State.setSt_draws (s : State) (b : Byte) : (s.setSt b).draws = s.draws := rfl

/-! ### noteKey -/
@[simp] theorem State.noteKey_v (s : State) (k : Key) : (s.noteKey k).v = s.v := rfl
@[simp] theorem State.noteKey_i (s : State) (k : Key) : (s.noteKey k).i = s.i := rfl
@[simp] theorem State.noteKey_pc (s : State) (k : Key) : (s.noteKey k).pc = s.pc := rfl
@[simp] theorem State.noteKey_sp (s : State) (k : Key) : (s.noteKey k).sp = s.sp := rfl
@[simp] theorem State.noteKey_stack (s : State) (k : Key) : (s.noteKey k).stack = s.stack := rfl
@[simp] theorem State.noteKey_dt (s : State) (k : Key) : (s.noteKey k).dt = s.dt := rfl
@[simp] theorem State.noteKey_st (s : State) (k : Key) : (s.noteKey k).st = s.st := rfl
@[simp] theorem State.noteKey_krm (s : State) (k : Key) : (s.noteKey k).krm = s.krm ||| BitVec.twoPow 16 k := rfl
@[simp] theorem State.noteKey_rpl (s : State) (k : Key) : (s.noteKey k).rpl = s.rpl := rfl
@[simp] theorem State.noteKey_mem (s : State) (k : Key) : (s.noteKey k).mem = s.mem := rfl
@[simp] theorem State.noteKey_disp (s : State) (k : Key) : (s.noteKey k).disp = s.disp := rfl
@[simp] theorem State.noteKey_status (s : State) (k : Key) : (s.noteKey k).status = s.status := rfl
@[simp] theorem State.noteKey_diag (s : State) (k : Key) : (s.noteKey k).diag = s.diag := rfl
@[simp] theorem State.noteKey_ir (s : State) (k : Key) : (s.noteKey k).ir = s.ir := rfl
@[simp] theorem State.noteKey_loadOpen (s : State) (k : Key) : (s.noteKey k).loadOpen = s.loadOpen := rfl
@[simp] theorem State.noteKey_events (s : State) (k : Key) : (s.noteKey k).events = s.events := rfl
@[simp] theorem State.noteKey_pins (s : State) (k : Key) : (s.noteKey k).pins = s.pins := rfl
@[simp] theorem State.noteKey_draws (s : State) (k : Key) : (s.noteKey k).draws = s.draws := rfl

/-! ### setStatus -/
@[simp] theorem State.setStatus_v (s : State) (o : Status) : (s.setStatus o).v = s.v := rfl
@[simp] theorem State.setStatus_i (s : State) (o : Status) : (s.setStatus o).i = s.i := rfl
@[simp] theorem State.setStatus_pc (s : State) (o : Status) : (s.setStatus o).pc = s.pc := rfl
@[simp] theorem State.setStatus_sp (s : State) (o : Status) : (s.setStatus o).sp = s.sp := rfl
@[simp] theorem State.setStatus_stack (s : State) (o : Status) : (s.setStatus o).stack = s.stack := rfl
@[simp] theorem State.setStatus_dt (s : State) (o : Status) : (s.setStatus o).dt = s.dt := rfl
@[simp] theorem State.setStatus_st (s : State) (o : Status) : (s.setStatus o).st = s.st := rfl
@[simp] theorem State.setStatus_krm (s : State) (o : Status) : (s.setStatus o).krm = s.krm := rfl
@[simp] theorem State.setStatus_rpl (s : State) (o : Status) : (s.setStatus o).rpl = s.rpl := rfl
@[simp] theorem State.setStatus_mem (s : State) (o : Status) : (s.setStatus o).mem = s.mem := rfl
@[simp] theorem State.setStatus_disp (s : State) (o : Status) : (s.setStatus o).disp = s.disp := rfl
@[simp] theorem State.setStatus_status (s : State) (o : Status) : (s.setStatus o).status = o := rfl
@[simp] theorem State.setStatus_diag (s : State) (o : Status) : (s.setStatus o).diag = s.diag := rfl
@[simp] theorem State.setStatus_ir (s : State) (o : Status) : (s.setStatus o).ir = s.ir := rfl
@[simp] theorem State.setStatus_loadOpen (s : State) (o : Status) : (s.setStatus o).loadOpen = s.loadOpen := rfl
@[simp] theorem State.setStatus_events (s : State) (o : Status) : (s.setStatus o).events = s.events := rfl
@[simp] theorem State.setStatus_pins (s : State) (o : Status) : (s.setStatus o).pins = s.pins := rfl
@[simp] theorem State.setStatus_draws (s : State) (o : Status) : (s.setStatus o).draws = s.draws := rfl

/-! ### push -/
@[simp] theorem State.push_v (s : State) (a : Addr) : (s.push a).v = s.v := rfl
@[simp] theorem State.push_i (s : State) (a : Addr) : (s.push a).i = s.i := rfl
@[simp] theorem State.push_pc (s : State) (a : Addr) : (s.push a).pc = s.pc := rfl
@[simp] theorem State.push_sp (s : State) (a : Addr) : (s.push a).sp = s.sp + 1 := rfl
@[simp] theorem State.push_stack (s : State) (a : Addr) : (s.push a).stack = s.stack.set s.sp.toNat a s.sp.isLt := rfl
@[simp] theorem State.push_dt (s : State) (a : Addr) : (s.push a).dt = s.dt := rfl
@[simp] theorem State.push_st (s : State) (a : Addr) : (s.push a).st = s.st := rfl
@[simp] theorem State.push_krm (s : State) (a : Addr) : (s.push a).krm = s.krm := rfl
@[simp] theorem State.push_rpl (s : State) (a : Addr) : (s.push a).rpl = s.rpl := rfl
@[simp] theorem State.push_mem (s : State) (a : Addr) : (s.push a).mem = s.mem := rfl
@[simp] theorem State.push_disp (s : State) (a : Addr) : (s.push a).disp = s.disp := rfl
@[simp] theorem State.push_status (s : State) (a : Addr) : (s.push a).status = s.status := rfl
@[simp] theorem State.push_diag (s : State) (a : Addr) : (s.push a).diag = s.diag := rfl
@[simp] theorem State.push_ir (s : State) (a : Addr) : (s.push a).ir = s.ir := rfl
@[simp] theorem State.push_loadOpen (s : State) (a : Addr) : (s.push a).loadOpen = s.loadOpen := rfl
@[simp] theorem State.push_events (s : State) (a : Addr) : (s.push a).events = s.events := rfl
@[simp] theorem State.push_pins (s : State) (a : Addr) : (s.push a).pins = s.pins := rfl
@[simp] theorem State.push_draws (s : State) (a : Addr) : (s.push a).draws = s.draws := rfl

/-! ### popPc -/
@[simp] theorem State.popPc_v (s : State) : s.popPc.v = s.v := rfl
@[simp] theorem State.popPc_i (s : State) : s.popPc.i = s.i := rfl
@[simp] theorem State.popPc_pc (s : State) : s.popPc.pc = s.stack[(s.sp - 1).toNat]'(s.sp - 1).isLt := rfl
@[simp] theorem State.popPc_sp (s : State) : s.popPc.sp = s.sp - 1 := rfl
@[simp] theorem State.popPc_stack (s : State) : s.popPc.stack = s.stack := rfl
@[simp] theorem State.popPc_dt (s : State) : s.popPc.dt = s.dt := rfl
@[simp] theorem State.popPc_st (s : State) : s.popPc.st = s.st := rfl
@[simp] theorem State.popPc_krm (s : State) : s.popPc.krm = s.krm := rfl
@[simp] theorem State.popPc_rpl (s : State) : s.popPc.rpl = s.rpl := rfl
@[simp] theorem State.popPc_mem (s : State) : s.popPc.mem = s.mem := rfl
@[simp] theorem State.popPc_disp (s : State) : s.popPc.disp = s.disp := rfl
@[simp] theorem State.popPc_status (s : State) : s.popPc.status = s.status := rfl
@[simp] theorem State.popPc_diag (s : State) : s.popPc.diag = s.diag := rfl
@[simp] theorem State.popPc_ir (s : State) : s.popPc.ir = s.ir := rfl
@[simp] theorem State.popPc_loadOpen (s : State) : s.popPc.loadOpen = s.loadOpen := rfl
@[simp] theorem State.popPc_events (s : State) : s.popPc.events = s.events := rfl
@[simp] theorem State.popPc_pins (s : State) : s.popPc.pins = s.pins := rfl
@[simp] theorem State.popPc_draws (s : State) : s.popPc.draws = s.draws := rfl

/-! ### fetch -/
@[simp] theorem State.fetch_v (s : State) : s.fetch.v = s.v := rfl
@[simp] theorem State.fetch_i (s : State) : s.fetch.i = s.i := rfl
@[simp] theorem State.fetch_pc (s : State) : s.fetch.pc = s.pc + 2 := rfl
@[simp] theorem State.fetch_sp (s : State) : s.fetch.sp = s.sp := rfl
@[simp] theorem State.fetch_stack (s : State) : s.fetch.stack = s.stack := rfl
@[simp] theorem State.fetch_dt (s : State) : s.fetch.dt = s.dt := rfl
@[simp] theorem State.fetch_st (s : State) : s.fetch.st = s.st := rfl
@[simp] theorem State.fetch_krm (s : State) : s.fetch.krm = s.krm := rfl
@[simp] theorem State.fetch_rpl (s : State) : s.fetch.rpl = s.rpl := rfl
@[simp] theorem State.fetch_mem (s : State) : s.fetch.mem = s.mem := rfl
@[simp] theorem State.fetch_disp (s : State) : s.fetch.disp = s.disp := rfl
@[simp] theorem State.fetch_status (s : State) : s.fetch.status = s.status := rfl
@[simp] theorem State.fetch_diag (s : State) : s.fetch.diag = s.diag := rfl
@[simp] theorem State.fetch_ir (s : State) : s.fetch.ir = s.fetchWord := rfl
@[simp] theorem State.fetch_loadOpen (s : State) : s.fetch.loadOpen = s.loadOpen := rfl
@[simp] theorem State.fetch_events (s : State) : s.fetch.events = s.events := rfl
@[simp] theorem State.fetch_pins (s : State) : s.fetch.pins = s.pins := rfl
@[simp] theorem State.fetch_draws (s : State) : s.fetch.draws = s.draws := rfl

/-! ### raise -/
@[simp] theorem State.raise_v (s : State) (o : Status) : (s.raise o).v = s.v := rfl
@[simp] theorem State.raise_i (s : State) (o : Status) : (s.raise o).i = s.i := rfl
@[simp] theorem State.raise_pc (s : State) (o : Status) : (s.raise o).pc = s.pc := rfl
@[simp] theorem State.raise_sp (s : State) (o : Status) : (s.raise o).sp = s.sp := rfl
@[simp] theorem State.raise_stack (s : State) (o : Status) : (s.raise o).stack = s.stack := rfl
@[simp] theorem State.raise_dt (s : State) (o : Status) : (s.raise o).dt = s.dt := rfl
@[simp] theorem State.raise_st (s : State) (o : Status) : (s.raise o).st = s.st := rfl
@[simp] theorem State.raise_krm (s : State) (o : Status) : (s.raise o).krm = s.krm := rfl
@[simp] theorem State.raise_rpl (s : State) (o : Status) : (s.raise o).rpl = s.rpl := rfl
@[simp] theorem State.raise_mem (s : State) (o : Status) : (s.raise o).mem = s.mem := rfl
@[simp] theorem State.raise_disp (s : State) (o : Status) : (s.raise o).disp = s.disp := rfl
@[simp] theorem State.raise_status (s : State) (o : Status) : (s.raise o).status = o := rfl
@[simp] theorem State.raise_diag (s : State) (o : Status) : (s.raise o).diag = s.ir := rfl
@[simp] theorem State.raise_ir (s : State) (o : Status) : (s.raise o).ir = s.ir := rfl
@[simp] theorem State.raise_loadOpen (s : State) (o : Status) : (s.raise o).loadOpen = s.loadOpen := rfl
@[simp] theorem State.raise_events (s : State) (o : Status) : (s.raise o).events = s.events := rfl
@[simp] theorem State.raise_pins (s : State) (o : Status) : (s.raise o).pins = s.pins := rfl
@[simp] theorem State.raise_draws (s : State) (o : Status) : (s.raise o).draws = s.draws := rfl

/-! ### setRegsBelow -/
@[simp] theorem State.setRegsBelow_v (s : State) (n : Nat) (f : Nat → Byte) : (s.setRegsBelow n f).v = Vector.ofFn (fun r : Reg => if r.val < n then f r.val else s.v[r]) := rfl
@[simp] theorem State.setRegsBelow_i (s : State) (n : Nat) (f : Nat → Byte) : (s.setRegsBelow n f).i = s.i := by cases s; rfl
@[simp] theorem State.setRegsBelow_pc (s : State) (n : Nat) (f : Nat → Byte) : (s.setRegsBelow n f).pc = s.pc := by cases s; rfl
@[simp] theorem State.setRegsBelow_sp (s : State) (n : Nat) (f : Nat → Byte) : (s.setRegsBelow n f).sp = s.sp := by cases s; rfl
@[simp] theorem State.setRegsBelow_stack (s : State) (n : Nat) (f : Nat → Byte) : (s.setRegsBelow n f).stack = s.stack := by cases s; rfl
@[simp] theorem State.setRegsBelow_dt (s : State) (n : Nat) (f : Nat → Byte) : (s.setRegsBelow n f).dt = s.dt := by cases s; rfl
@[simp] theorem State.setRegsBelow_st (s : State) (n : Nat) (f : Nat → Byte) : (s.setRegsBelow n f).st = s.st := by cases s; rfl
@[simp] theorem State.setRegsBelow_krm (s : State) (n : Nat) (f : Nat → Byte) : (s.setRegsBelow n f).krm = s.krm := by cases s; rfl
@[simp] theorem State.setRegsBelow_rpl (s : State) (n : Nat) (f : Nat → Byte) : (s.setRegsBelow n f).rpl = s.rpl := by cases s; rfl
@[simp] theorem State.setRegsBelow_mem (s : State) (n : Nat) (f : Nat → Byte) : (s.setRegsBelow n f).mem = s.mem := by cases s; rfl
@[simp] theorem State.setRegsBelow_disp (s : State) (n : Nat) (f : Nat → Byte) : (s.setRegsBelow n f).disp = s.disp := by cases s; rfl
@[simp] theorem State.setRegsBelow_status (s : State) (n : Nat) (f : Nat → Byte) : (s.setRegsBelow n f).status = s.status := by cases s; rfl
@[simp] theorem State.setRegsBelow_diag (s : State) (n : Nat) (f : Nat → Byte) : (s.setRegsBelow n f).diag = s.diag := by cases s; rfl
@[simp] theorem State.setRegsBelow_ir (s : State) (n : Nat) (f : Nat → Byte) : (s.setRegsBelow n f).ir = s.ir := by cases s; rfl
@[simp] theorem State.setRegsBelow_loadOpen (s : State) (n : Nat) (f : Nat → Byte) : (s.setRegsBelow n f).loadOpen = s.loadOpen := by cases s; rfl
@[simp] theorem State.setRegsBelow_events (s : State) (n : Nat) (f : Nat → Byte) : (s.setRegsBelow n f).events = s.events := by cases s; rfl
@[simp] theorem State.setRegsBelow_pins (s : State) (n : Nat) (f : Nat → Byte) : (s.setRegsBelow n f).pins = s.pins := by cases s; rfl
@[simp] theorem State.setRegsBelow_draws (s : State) (n : Nat) (f : Nat → Byte) : (s.setRegsBelow n f).draws = s.draws := by cases s; rfl

/-! ### sample -/
@[simp] theorem State.sample_v (s : State) (p : Pins) : (s.sample p).v = s.v := rfl
@[simp] theorem State.sample_i (s : State) (p : Pins) : (s.sample p).i = s.i := rfl
@[simp] theorem State.sample_pc (s : State) (p : Pins) : (s.sample p).pc = s.pc := rfl
@[simp] theorem State.sample_sp (s : State) (p : Pins) : (s.sample p).sp = s.sp := rfl
@[simp] theorem State.sample_stack (s : State) (p : Pins) : (s.sample p).stack = s.stack := rfl
@[simp] theorem State.sample_dt (s : State) (p : Pins) : (s.sample p).dt = s.dt := rfl
@[simp] theorem State.sample_st (s : State) (p : Pins) : (s.sample p).st = s.st := rfl
@[simp] theorem State.sample_krm (s : State) (p : Pins) : (s.sample p).krm = s.krm := rfl
@[simp] theorem State.sample_rpl (s : State) (p : Pins) : (s.sample p).rpl = s.rpl := rfl
@[simp] theorem State.sample_mem (s : State) (p : Pins) : (s.sample p).mem = s.mem := rfl
@[simp] theorem State.sample_disp (s : State) (p : Pins) : (s.sample p).disp = s.disp := rfl
@[simp] theorem State.sample_status (s : State) (p : Pins) : (s.sample p).status = s.status := rfl
@[simp] theorem State.sample_diag (s : State) (p : Pins) : (s.sample p).diag = s.diag := rfl
@[simp] theorem State.sample_ir (s : State) (p : Pins) : (s.sample p).ir = s.ir := rfl
@[simp] theorem State.sample_loadOpen (s : State) (p : Pins) : (s.sample p).loadOpen = false := rfl
@[simp] theorem State.sample_events (s : State) (p : Pins) : (s.sample p).events = s.events := rfl
@[simp] theorem State.sample_pins (s : State) (p : Pins) : (s.sample p).pins = p := rfl
@[simp] theorem State.sample_draws (s : State) (p : Pins) : (s.sample p).draws = s.draws := rfl

/-! ### tickEvent -/
@[simp] theorem State.tickEvent_v (s : State) : s.tickEvent.v = s.v := rfl
@[simp] theorem State.tickEvent_i (s : State) : s.tickEvent.i = s.i := rfl
@[simp] theorem State.tickEvent_pc (s : State) : s.tickEvent.pc = s.pc := rfl
@[simp] theorem State.tickEvent_sp (s : State) : s.tickEvent.sp = s.sp := rfl
@[simp] theorem State.tickEvent_stack (s : State) : s.tickEvent.stack = s.stack := rfl
@[simp] theorem State.tickEvent_dt (s : State) : s.tickEvent.dt = countDown s.dt := rfl
@[simp] theorem State.tickEvent_st (s : State) : s.tickEvent.st = countDown s.st := rfl
@[simp] theorem State.tickEvent_krm (s : State) : s.tickEvent.krm = s.krm := rfl
@[simp] theorem State.tickEvent_rpl (s : State) : s.tickEvent.rpl = s.rpl := rfl
@[simp] theorem State.tickEvent_mem (s : State) : s.tickEvent.mem = s.mem := rfl
@[simp] theorem State.tickEvent_disp (s : State) : s.tickEvent.disp = s.disp := rfl
@[simp] theorem State.tickEvent_status (s : State) : s.tickEvent.status = s.status := rfl
@[simp] theorem State.tickEvent_diag (s : State) : s.tickEvent.diag = s.diag := rfl
@[simp] theorem State.tickEvent_ir (s : State) : s.tickEvent.ir = s.ir := rfl
@[simp] theorem State.tickEvent_loadOpen (s : State) : s.tickEvent.loadOpen = s.loadOpen := rfl
@[simp] theorem State.tickEvent_events (s : State) : s.tickEvent.events = s.events := rfl
@[simp] theorem State.tickEvent_pins (s : State) : s.tickEvent.pins = s.pins := rfl
@[simp] theorem State.tickEvent_draws (s : State) : s.tickEvent.draws = s.draws := rfl

/-! ### Registers through their accessor -/

/-- A register after a register write. -/
@[simp] theorem State.getV_setV (s : State) (r q : Reg) (b : Byte) :
    (s.setV r b).getV q = if q = r then b else s.getV q := by
  simp only [State.getV, State.setV, Fin.getElem_fin, Vector.getElem_set, Fin.ext_iff, eq_comm]

/-- A register after a counted load. -/
@[simp] theorem State.getV_setRegsBelow (s : State) (n : Nat) (f : Nat → Byte) (q : Reg) :
    (s.setRegsBelow n f).getV q = if q.val < n then f q.val else s.getV q := by
  simp [State.getV, State.setRegsBelow]

/-- The registers are read from the field `v` alone. -/
theorem State.getV_of_v_eq {s t : State} (h : s.v = t.v) (q : Reg) : s.getV q = t.getV q := by
  simp [State.getV, h]

@[simp] theorem State.getV_setI (s : State) (a : Addr) (q : Reg) : (s.setI a).getV q = s.getV q := rfl
@[simp] theorem State.getV_setPc (s : State) (a : Addr) (q : Reg) : (s.setPc a).getV q = s.getV q := rfl
@[simp] theorem State.getV_setMem (s : State) (m : Memory) (q : Reg) : (s.setMem m).getV q = s.getV q := rfl
@[simp] theorem State.getV_setDisp (s : State) (d : Display) (q : Reg) : (s.setDisp d).getV q = s.getV q := rfl
@[simp] theorem State.getV_setRpl (s : State) (r : RplBank) (q : Reg) : (s.setRpl r).getV q = s.getV q := rfl
@[simp] theorem State.getV_setDt (s : State) (b : Byte) (q : Reg) : (s.setDt b).getV q = s.getV q := rfl
@[simp] theorem State.getV_setSt (s : State) (b : Byte) (q : Reg) : (s.setSt b).getV q = s.getV q := rfl
@[simp] theorem State.getV_noteKey (s : State) (k : Key) (q : Reg) : (s.noteKey k).getV q = s.getV q := rfl
@[simp] theorem State.getV_setStatus (s : State) (o : Status) (q : Reg) : (s.setStatus o).getV q = s.getV q := rfl
@[simp] theorem State.getV_push (s : State) (a : Addr) (q : Reg) : (s.push a).getV q = s.getV q := rfl
@[simp] theorem State.getV_popPc (s : State) (q : Reg) : s.popPc.getV q = s.getV q := rfl
@[simp] theorem State.getV_fetch (s : State) (q : Reg) : s.fetch.getV q = s.getV q := rfl
@[simp] theorem State.getV_raise (s : State) (o : Status) (q : Reg) : (s.raise o).getV q = s.getV q := rfl
@[simp] theorem State.getV_sample (s : State) (p : Pins) (q : Reg) : (s.sample p).getV q = s.getV q := rfl
@[simp] theorem State.getV_tickEvent (s : State) (q : Reg) : s.tickEvent.getV q = s.getV q := rfl

/-! ### The compound updates -/

/-- The flag is written after the result (42_alu.md R160). -/
theorem State.setResultFlag_eq (s : State) (x : Reg) (result flag : Byte) :
    s.setResultFlag x result flag = (s.setV x result).setV flagReg flag := rfl

/-- Everything `setResultFlag` does: `VF` holds the flag, `V[x]` the result unless `x` is `VF`, and nothing else
changes. -/
theorem State.setResultFlag_spec (s : State) (x : Reg) (result flag : Byte) :
    (s.setResultFlag x result flag).getV 15 = flag ∧
    (x ≠ 15 → (s.setResultFlag x result flag).getV x = result) ∧
    (∀ r, r ≠ x → r ≠ 15 → (s.setResultFlag x result flag).getV r = s.getV r) ∧
    s.setResultFlag x result flag = { s with v := (s.setResultFlag x result flag).v } := by
  refine ⟨by simp [State.setResultFlag_eq, flagReg], fun h => ?_, fun r hx hf => ?_, rfl⟩
  · simp [State.setResultFlag_eq, flagReg, h]
  · simp [State.setResultFlag_eq, flagReg, hx, hf]

/-- `skipIf` writes PC only (41_skip.md R147). -/
theorem State.skipIf_eq (s : State) (c : Bool) : s.skipIf c = { s with pc := if c then s.pc + 2 else s.pc } := rfl

/-- `storeAtI` writes memory only. -/
theorem State.storeAtI_eq (s : State) (bs : List Byte) :
    s.storeAtI bs = { s with mem := Memory.writeBytes s.mem s.i bs } := rfl

/-- `raise` writes DIAG and STATUS only (60_exceptions.md R302). -/
theorem State.raise_eq (s : State) (o : Status) : s.raise o = { s with diag := s.ir, status := o } := rfl

/-- A halt request in a live run. -/
theorem State.haltRequest_of_live {s : State} (h : s.status.terminal = false) :
    s.haltRequest = { s with status := .halted } := by
  simp [State.haltRequest, h, State.setStatus]

/-- A halt request after the end of the run. -/
theorem State.haltRequest_of_terminal {s : State} (h : s.status.terminal = true) : s.haltRequest = s := by
  simp [State.haltRequest, h]

/-- The key event in the key wait (45_io.md R243). -/
theorem State.keyEvent_of_wait {s : State} (h : s.status = .waitKey) (k : Key) :
    s.keyEvent k = (s.setV (fieldX s.ir) (BitVec.ofNat 8 k.val)).setStatus .running := by
  simp [State.keyEvent, h]

/-- A key event at any other time. -/
theorem State.keyEvent_of_not_wait {s : State} (h : s.status ≠ .waitKey) (k : Key) : s.keyEvent k = s := by
  simp [State.keyEvent, h]

/-- A timer counts down without wrapping below 0 (60_exceptions.md R310). -/
theorem countDown_toNat (b : Byte) : (countDown b).toNat = b.toNat - 1 := by
  unfold countDown
  split
  · next h => simp [h]
  · next h =>
    have hb : b.toNat ≠ 0 := fun e => h (BitVec.eq_of_toNat_eq (by simpa using e))
    have := b.isLt
    have e1 : (1 : Byte).toNat = 1 := rfl
    simp only [BitVec.toNat_sub, e1]
    omega

end Sys2Proof.Machine
end

