-- ==== Sys2Proof/Laws/Events.lean ====
section
/-! SUPPORT. Which event comes next, and what one step can be, said once: an instruction, a rejected word, or one of
the other events. -/

namespace Sys2Proof.Machine

/-- A fetched word that decodes is executed in the fetched state (00_scope.md R13). -/
theorem State.runInstruction_of_ok {s : State} {i : Instr} (h : decode s.fetchWord = .ok i) :
    s.runInstruction = exec i s.fetch := by
  have h' : decode s.fetch.ir = .ok i := h
  simp only [State.runInstruction, h']

/-- A fetched word that is rejected raises InvalidOpcode (46_unsupported.md R277). -/
theorem State.runInstruction_of_error {s : State} {e : DecodeError} (h : decode s.fetchWord = .error e) :
    s.runInstruction = .next s.fetch.raiseInvalid := by
  have h' : decode s.fetch.ir = .error e := h
  simp only [State.runInstruction, h']

/-! ### Which event comes next (60_exceptions.md R313) -/

@[simp] theorem State.dequeue_v (s : State) : s.dequeue.v = s.v := rfl
@[simp] theorem State.dequeue_i (s : State) : s.dequeue.i = s.i := rfl
@[simp] theorem State.dequeue_pc (s : State) : s.dequeue.pc = s.pc := rfl
@[simp] theorem State.dequeue_sp (s : State) : s.dequeue.sp = s.sp := rfl
@[simp] theorem State.dequeue_stack (s : State) : s.dequeue.stack = s.stack := rfl
@[simp] theorem State.dequeue_dt (s : State) : s.dequeue.dt = s.dt := rfl
@[simp] theorem State.dequeue_st (s : State) : s.dequeue.st = s.st := rfl
@[simp] theorem State.dequeue_krm (s : State) : s.dequeue.krm = s.krm := rfl
@[simp] theorem State.dequeue_rpl (s : State) : s.dequeue.rpl = s.rpl := rfl
@[simp] theorem State.dequeue_mem (s : State) : s.dequeue.mem = s.mem := rfl
@[simp] theorem State.dequeue_disp (s : State) : s.dequeue.disp = s.disp := rfl
@[simp] theorem State.dequeue_status (s : State) : s.dequeue.status = s.status := rfl
@[simp] theorem State.dequeue_diag (s : State) : s.dequeue.diag = s.diag := rfl
@[simp] theorem State.dequeue_ir (s : State) : s.dequeue.ir = s.ir := rfl
@[simp] theorem State.dequeue_loadOpen (s : State) : s.dequeue.loadOpen = s.loadOpen := rfl
@[simp] theorem State.dequeue_pins (s : State) : s.dequeue.pins = s.pins := rfl
@[simp] theorem State.dequeue_events (s : State) : s.dequeue.events = s.events.tail := rfl

/-- A listed event comes before any drawn one. -/
theorem State.nextEvent_of_cons {s : State} {e : Event} {es : Schedule} (h : s.events = e :: es) :
    s.nextEvent = e := by
  simp [State.nextEvent, h]

/-- Taking a listed event removes it and nothing else. -/
theorem State.dequeue_of_cons {s : State} {e : Event} {es : Schedule} (h : s.events = e :: es) :
    s.dequeue = { s with events := es } := by
  simp [State.dequeue, h]

/-- With no event listed the next one is drawn. -/
theorem State.nextEvent_of_nil {s : State} (h : s.events = []) : s.nextEvent = s.drawnEvent := by
  simp [State.nextEvent, h]

/-- Drawing an event counts it and changes nothing else. -/
theorem State.dequeue_of_nil {s : State} (h : s.events = []) : s.dequeue = { s with draws := s.draws + 1 } := by
  cases s
  subst h
  rfl

/-- The contract leaves out loads only, and those only after the run has started or below 0x200. -/
theorem State.admits_eq_false_iff (s : State) (e : Event) :
    s.admits e = false ↔ ∃ a b, e = .load a b ∧ (s.loadOpen = false ∨ a < programBase) := by
  cases e <;> simp [State.admits]
  rename_i a b
  cases s.loadOpen <;> simp

/-- A drawn event keeps to the contract. -/
theorem State.admits_drawnEvent (s : State) : s.admits s.drawnEvent = true := by
  unfold State.drawnEvent
  split
  · assumption
  · rfl

/-- One step takes the next event. -/
theorem step_eq (s : State) : step s = s.dequeue.handle s.nextEvent := rfl

/-- The step, once it is known which event comes next. -/
theorem step_of_nextEvent {s : State} {e : Event} (h : s.nextEvent = e) : step s = s.dequeue.handle e := by
  rw [step_eq, h]

/-- The three cases of a scheduled step. -/
theorem State.stepEvent_cases (s : State) (p : Pins) :
    (p.haltReq = true ∧ s.stepEvent p = .next (s.sample p).haltRequest) ∨
    (p.haltReq = false ∧ s.status = .running ∧ s.stepEvent p = (s.sample p).runInstruction) ∨
    (p.haltReq = false ∧ s.status ≠ .running ∧ s.stepEvent p = .next (s.sample p)) := by
  unfold State.stepEvent
  by_cases h : p.haltReq = true
  · exact .inl ⟨h, by simp [h]⟩
  · by_cases hr : s.status = .running
    · exact .inr (.inl ⟨by simpa using h, hr, by simp [h, hr]⟩)
    · exact .inr (.inr ⟨by simpa using h, hr, by simp [h, hr]⟩)

/-- The three cases of a load: stored, refused as too late, refused as below the program area (R344; log 8). -/
theorem State.loadEvent_cases (s : State) (a : Addr) (b : Byte) :
    (s.loadOpen = true ∧ programBase ≤ a ∧ s.loadEvent a b = .next (s.setMem (Memory.write s.mem a b))) ∨
    (s.loadOpen = false ∧ s.loadEvent a b = .refused .loadDuringRun) ∨
    (s.loadOpen = true ∧ a < programBase ∧ s.loadEvent a b = .refused .loadOutsideImage) := by
  unfold State.loadEvent
  by_cases h : s.loadOpen = true
  · by_cases ha : a < programBase
    · exact .inr (.inr ⟨h, ha, by simp [h, ha]⟩)
    · exact .inl ⟨h, BitVec.not_lt.mp ha, by simp [h, ha]⟩
  · exact .inr (.inl ⟨by simpa using h, by simp [h]⟩)

/-- From a state whose next event is an instruction step, the step runs the instruction at PC. -/
theorem step_of_stepsFrom {s s0 : State} (h : s.stepsFrom s0) : step s = s0.runInstruction := by
  obtain ⟨hr, p, he, hp, rfl⟩ := h
  simp [step_of_nextEvent he, State.handle, State.stepEvent, hp, hr]

end Sys2Proof.Machine
end

