-- ==== Sys2Proof/Laws/Memory.lean ====
section
/-! SUPPORT. The laws of memory: read after write, ranges of bytes, and the canonical form. -/

namespace Sys2Proof.Machine

/-! ### Entries -/

/-- Listing a byte makes it the entry of its address and keeps every other entry. -/
theorem Memory.entry_put (m : Memory) (a c : Nat) (b : Byte) :
    Memory.entry? (Memory.put m a b) c = if c = a then some b else Memory.entry? m c := by
  induction m with
  | nil => simp [Memory.put, Memory.entry?]
  | cons e m ih =>
    obtain ⟨k, d⟩ := e
    simp only [Memory.put]
    split
    · simp [Memory.entry?]
    · split
      · next h => subst h; simp only [Memory.entry?]; split <;> simp_all
      · next h1 h2 =>
        simp only [Memory.entry?, ih]
        by_cases hk : c = k
        · subst hk; simp [Ne.symm h2]
        · simp [hk]

/-- Removing an address removes its entry and keeps every other one. -/
theorem Memory.entry_filter (m : Memory) (a c : Nat) :
    Memory.entry? (m.filter (fun e => e.1 != a)) c = if c = a then none else Memory.entry? m c := by
  induction m with
  | nil => simp [Memory.entry?]
  | cons e m ih =>
    obtain ⟨k, d⟩ := e
    by_cases hk : k = a
    · subst hk
      simp only [List.filter_cons, bne_self_eq_false, Bool.false_eq_true, if_false, ih, Memory.entry?]
      split <;> rfl
    · simp only [List.filter_cons, bne_iff_ne, ne_eq, hk, not_false_eq_true, if_true, Memory.entry?, ih]
      by_cases hc : c = k
      · subst hc; simp [hk]
      · simp [hc]

/-- The read-after-write law (20_memory.md R67): the byte written at its address, the old byte elsewhere. -/
@[simp] theorem Memory.read_write (m : Memory) (a c : Addr) (b : Byte) :
    Memory.read (Memory.write m a b) c = if c = a then b else Memory.read m c := by
  unfold Memory.read Memory.write
  have hca : (c.toNat = a.toNat) ↔ c = a := ⟨BitVec.eq_of_toNat_eq, congrArg _⟩
  split
  · next h => rw [Memory.entry_filter]; by_cases e : c = a <;> simp [hca, e, h]
  · rw [Memory.entry_put]; by_cases e : c = a <;> simp [hca, e]

/-- With nothing listed, every address reads as its launch value (10_state.md R31). -/
theorem Memory.read_nil (a : Addr) : Memory.read [] a = Memory.blank a.toNat := rfl

/-! ### Ranges -/

/-- The number of a byte in a range counted from its start, mod 4096. -/
theorem offset_succ (a c : Addr) (h : c ≠ a) : (c - a).toNat = (c - (a + 1)).toNat + 1 := by
  have : c.toNat ≠ a.toNat := fun e => h (BitVec.eq_of_toNat_eq e)
  have h1 := c.isLt
  have h2 := a.isLt
  have e1 : (1 : Addr).toNat = 1 := rfl
  simp only [BitVec.toNat_sub, BitVec.toNat_add, e1]
  omega

/-- What every address reads as after a range of bytes is stored, mod 4096: the byte at its offset from the
start, or the old byte outside the range (R63, R65, R66). -/
theorem Memory.read_writeBytes (m : Memory) (a c : Addr) (bs : List Byte) (hl : bs.length ≤ 4096) :
    Memory.read (Memory.writeBytes m a bs) c =
      if h : (c - a).toNat < bs.length then bs[(c - a).toNat] else Memory.read m c := by
  induction bs generalizing m a with
  | nil => simp [Memory.writeBytes]
  | cons b bs ih =>
    simp only [List.length_cons] at hl
    rw [Memory.writeBytes, ih _ _ (by omega), Memory.read_write]
    by_cases hc : c = a
    · subst hc
      have h1 : (c - (c + 1) : Addr).toNat = 4095 := by
        have := c.isLt
        have e1 : (1 : Addr).toNat = 1 := rfl
        simp only [BitVec.toNat_sub, BitVec.toNat_add, e1]
        omega
      rw [dif_neg (by omega)]
      simp
    · have hs := offset_succ a c hc
      simp only [hs, List.length_cons, Nat.add_lt_add_iff_right, List.getElem_cons_succ, if_neg hc]

/-- The `k`-th address of a range has offset `k`. -/
theorem offset_add (a : Addr) (k : Nat) (h : k < 4096) : (a + BitVec.ofNat 12 k - a).toNat = k := by
  have := a.isLt
  simp only [BitVec.toNat_sub, BitVec.toNat_add, BitVec.toNat_ofNat]
  omega

/-- Inside a stored range: byte `k` is the `k`-th byte stored. -/
theorem Memory.read_writeBytes_inside (m : Memory) (a : Addr) (bs : List Byte) (hl : bs.length ≤ 4096) (k : Nat)
    (h : k < bs.length) : Memory.read (Memory.writeBytes m a bs) (a + BitVec.ofNat 12 k) = bs[k] := by
  have ho := offset_add a k (by omega)
  rw [Memory.read_writeBytes m a _ bs hl, dif_pos (by omega)]
  simp only [ho]

/-- Outside a stored range memory reads as before. -/
theorem Memory.read_writeBytes_outside (m : Memory) (a c : Addr) (bs : List Byte) (hl : bs.length ≤ 4096)
    (h : bs.length ≤ (c - a).toNat) : Memory.read (Memory.writeBytes m a bs) c = Memory.read m c := by
  rw [Memory.read_writeBytes m a _ bs hl, dif_neg (by omega)]

/-- How many bytes a range read gives. -/
@[simp] theorem Memory.length_readBytes (m : Memory) (a : Addr) (n : Nat) :
    (Memory.readBytes m a n).length = n := by
  induction n generalizing a with
  | zero => rfl
  | succ n ih => simp [Memory.readBytes, ih]

/-- Byte `k` of a range read is the byte at the start plus `k`, mod 4096. -/
theorem Memory.getElem_readBytes (m : Memory) (a : Addr) (n k : Nat) (h : k < (Memory.readBytes m a n).length) :
    (Memory.readBytes m a n)[k] = Memory.read m (a + BitVec.ofNat 12 k) := by
  induction n generalizing a k with
  | zero => simp [Memory.readBytes] at h
  | succ n ih =>
    cases k with
    | zero => simp [Memory.readBytes]
    | succ k =>
      simp only [Memory.readBytes, List.getElem_cons_succ]
      rw [ih]
      congr 1
      apply BitVec.eq_of_toNat_eq
      have e1 : (1 : Addr).toNat = 1 := rfl
      simp only [BitVec.toNat_add, BitVec.toNat_ofNat, e1]
      omega

/-! ### The canonical form -/

/-- What the canonical form says, as propositions. -/
theorem Memory.wf_iff (m : Memory) :
    Memory.wf m = true ↔
      m.Pairwise (fun c d => c.1 < d.1) ∧ ∀ c ∈ m, c.1 < 4096 ∧ c.2 ≠ Memory.blank c.1 := by
  simp [Memory.wf, List.all_eq_true]

/-- The entries of a memory after listing a byte. -/
theorem Memory.mem_put (m : Memory) (a : Nat) (b : Byte) (e : Host.Cell) (h : e ∈ Memory.put m a b) :
    e = (a, b) ∨ e ∈ m := by
  induction m with
  | nil => simpa [Memory.put] using h
  | cons c m ih =>
    obtain ⟨k, d⟩ := c
    simp only [Memory.put] at h
    split at h
    · simpa using h
    · split at h
      · simp only [List.mem_cons] at h ⊢; tauto
      · simp only [List.mem_cons] at h ⊢
        rcases h with h | h
        · exact .inr (.inl h)
        · exact (ih h).imp_right .inr

/-- Listing a byte keeps the addresses strictly rising. -/
theorem Memory.put_sorted (m : Memory) (a : Nat) (b : Byte) (h : m.Pairwise (fun c d => c.1 < d.1)) :
    (Memory.put m a b).Pairwise (fun c d => c.1 < d.1) := by
  induction m with
  | nil => simp [Memory.put]
  | cons c m ih =>
    obtain ⟨k, d⟩ := c
    have hc := List.pairwise_cons.mp h
    simp only [Memory.put]
    split
    · next hk =>
      refine List.pairwise_cons.mpr ⟨fun e he => ?_, h⟩
      rcases List.mem_cons.mp he with rfl | he
      · exact hk
      · exact Nat.lt_trans hk (hc.1 e he)
    · split
      · next h2 => subst h2; exact List.pairwise_cons.mpr ⟨hc.1, hc.2⟩
      · next h1 h2 =>
        refine List.pairwise_cons.mpr ⟨fun e he => ?_, ih hc.2⟩
        rcases Memory.mem_put m a b e he with rfl | he
        · show k < a; omega
        · exact hc.1 e he

/-- A write keeps the canonical form. -/
theorem Memory.write_wf (m : Memory) (a : Addr) (b : Byte) (h : Memory.wf m = true) :
    Memory.wf (Memory.write m a b) = true := by
  rw [Memory.wf_iff] at h ⊢
  unfold Memory.write
  split
  · exact ⟨h.1.filter _, fun c hc => h.2 c (List.mem_of_mem_filter hc)⟩
  · next hb =>
    refine ⟨Memory.put_sorted m _ b h.1, fun c hc => ?_⟩
    rcases Memory.mem_put m _ b c hc with rfl | hc
    · exact ⟨a.isLt, hb⟩
    · exact h.2 c hc

/-- A ranged write keeps the canonical form. -/
theorem Memory.writeBytes_wf (m : Memory) (a : Addr) (bs : List Byte) (h : Memory.wf m = true) :
    Memory.wf (Memory.writeBytes m a bs) = true := by
  induction bs generalizing m a with
  | nil => exact h
  | cons b bs ih => exact ih _ _ (Memory.write_wf m a b h)

end Sys2Proof.Machine
end

