-- ==== Sys2Proof/Laws/PerInstr.lean ====
section
/-! SUPPORT. Facts proved for every instruction, one lemma per constructor (LAWS.json). `EncodesItsRow`: the word
of an instruction has the class, and in the classes that dispatch on it the low digit or byte, that the opcode
map of 30_encoding.md R95 gives its line. -/

namespace Sys2Proof.Laws.EncodesItsRow

/-- The word of the instruction agrees with a line's fixed digits: its class, and the low `digits` value. -/
def Fixed (i : Instr) (cls modulus low : Nat) : Prop :=
  (encode i).toNat / 4096 = cls ∧ (encode i).toNat % modulus = low

/-- The fixed digits of each line of the opcode map (R95). `modulus` 1 where the class alone selects the line. -/
def Statement : Instr → Prop
  | .cls => Fixed Instr.cls 0x0 4096 0xE0
  | .ret => Fixed Instr.ret 0x0 4096 0xEE
  | .jp nnn => Fixed (.jp nnn) 0x1 1 0x0
  | .call nnn => Fixed (.call nnn) 0x2 1 0x0
  | .jpV0 nnn => Fixed (.jpV0 nnn) 0xB 1 0x0
  | .seVxKk x kk => Fixed (.seVxKk x kk) 0x3 1 0x0
  | .sneVxKk x kk => Fixed (.sneVxKk x kk) 0x4 1 0x0
  | .seVxVy x y => Fixed (.seVxVy x y) 0x5 16 0x0
  | .sgtVxVy x y => Fixed (.sgtVxVy x y) 0x5 16 0x1
  | .sltVxVy x y => Fixed (.sltVxVy x y) 0x5 16 0x2
  | .sne5VxVy x y => Fixed (.sne5VxVy x y) 0x5 16 0x3
  | .sneVxVy x y => Fixed (.sneVxVy x y) 0x9 16 0x0
  | .ldVxKk x kk => Fixed (.ldVxKk x kk) 0x6 1 0x0
  | .addVxKk x kk => Fixed (.addVxKk x kk) 0x7 1 0x0
  | .ldVxVy x y => Fixed (.ldVxVy x y) 0x8 16 0x0
  | .orVxVy x y => Fixed (.orVxVy x y) 0x8 16 0x1
  | .andVxVy x y => Fixed (.andVxVy x y) 0x8 16 0x2
  | .xorVxVy x y => Fixed (.xorVxVy x y) 0x8 16 0x3
  | .addVxVy x y => Fixed (.addVxVy x y) 0x8 16 0x4
  | .subVxVy x y => Fixed (.subVxVy x y) 0x8 16 0x5
  | .shrVx x => Fixed (.shrVx x) 0x8 16 0x6
  | .subnVxVy x y => Fixed (.subnVxVy x y) 0x8 16 0x7
  | .shlVx x => Fixed (.shlVx x) 0x8 16 0xE
  | .mulVxVy x y => Fixed (.mulVxVy x y) 0x9 16 0x1
  | .divVxVy x y => Fixed (.divVxVy x y) 0x9 16 0x2
  | .bcdVxVy x y => Fixed (.bcdVxVy x y) 0x9 16 0x3
  | .ldI nnn => Fixed (.ldI nnn) 0xA 1 0x0
  | .addIVx x => Fixed (.addIVx x) 0xF 256 0x1E
  | .ldFVx x => Fixed (.ldFVx x) 0xF 256 0x29
  | .ldHfVx x => Fixed (.ldHfVx x) 0xF 256 0x30
  | .ldBVx x => Fixed (.ldBVx x) 0xF 256 0x33
  | .ldMemVx x => Fixed (.ldMemVx x) 0xF 256 0x55
  | .ldVxMem x => Fixed (.ldVxMem x) 0xF 256 0x65
  | .ldRVx x => Fixed (.ldRVx x) 0xF 256 0x75
  | .ldVxR x => Fixed (.ldVxR x) 0xF 256 0x85
  | .rndVxKk x kk => Fixed (.rndVxKk x kk) 0xC 1 0x0
  | .drwVxVyN x y n => Fixed (.drwVxVyN x y n) 0xD 1 0x0
  | .skpVx x => Fixed (.skpVx x) 0xE 256 0x9E
  | .sknpVx x => Fixed (.sknpVx x) 0xE 256 0xA1
  | .ldVxDt x => Fixed (.ldVxDt x) 0xF 256 0x7
  | .ldVxK x => Fixed (.ldVxK x) 0xF 256 0xA
  | .ldDtVx x => Fixed (.ldDtVx x) 0xF 256 0x15
  | .ldStVx x => Fixed (.ldStVx x) 0xF 256 0x18
  | .scd n => Fixed (.scd n) 0x0 4096 (0x0C0 + n.val)
  | .scr => Fixed Instr.scr 0x0 4096 0xFB
  | .scl => Fixed Instr.scl 0x0 4096 0xFC
  | .exit => Fixed Instr.exit 0x0 4096 0xFD
  | .low => Fixed Instr.low 0x0 4096 0xFE
  | .high => Fixed Instr.high 0x0 4096 0xFF
  | .ldAVx x => Fixed (.ldAVx x) 0xF 256 0x94

/-- From the value of the word to its fixed digits. -/
theorem fixed_of_value {i : Instr} {v cls modulus low : Nat} (h : (encode i).toNat = v) (hc : v / 4096 = cls)
    (hl : v % modulus = low) : Fixed i cls modulus low := by
  unfold Fixed
  rw [h]
  exact ⟨hc, hl⟩

theorem cls : Statement (.cls) := by unfold Statement Fixed; decide

theorem ret : Statement (.ret) := by unfold Statement Fixed; decide

theorem jp (nnn : Addr) : Statement (.jp nnn) := by
  have := nnn.isLt
  exact fixed_of_value (toNat_encA (by decide) nnn) (by omega) (by omega)

theorem call (nnn : Addr) : Statement (.call nnn) := by
  have := nnn.isLt
  exact fixed_of_value (toNat_encA (by decide) nnn) (by omega) (by omega)

theorem jpV0 (nnn : Addr) : Statement (.jpV0 nnn) := by
  have := nnn.isLt
  exact fixed_of_value (toNat_encA (by decide) nnn) (by omega) (by omega)

theorem seVxKk (x : Reg) (kk : Byte) : Statement (.seVxKk x kk) := by
  have := kk.isLt
  exact fixed_of_value (toNat_encXK (by decide) x kk) (by omega) (by omega)

theorem sneVxKk (x : Reg) (kk : Byte) : Statement (.sneVxKk x kk) := by
  have := kk.isLt
  exact fixed_of_value (toNat_encXK (by decide) x kk) (by omega) (by omega)

theorem seVxVy (x : Reg) (y : Reg) : Statement (.seVxVy x y) := by
  exact fixed_of_value (toNat_encXYN (by decide) x y 0) (by omega) (by omega)

theorem sgtVxVy (x : Reg) (y : Reg) : Statement (.sgtVxVy x y) := by
  exact fixed_of_value (toNat_encXYN (by decide) x y 1) (by omega) (by omega)

theorem sltVxVy (x : Reg) (y : Reg) : Statement (.sltVxVy x y) := by
  exact fixed_of_value (toNat_encXYN (by decide) x y 2) (by omega) (by omega)

theorem sne5VxVy (x : Reg) (y : Reg) : Statement (.sne5VxVy x y) := by
  exact fixed_of_value (toNat_encXYN (by decide) x y 3) (by omega) (by omega)

theorem sneVxVy (x : Reg) (y : Reg) : Statement (.sneVxVy x y) := by
  exact fixed_of_value (toNat_encXYN (by decide) x y 0) (by omega) (by omega)

theorem ldVxKk (x : Reg) (kk : Byte) : Statement (.ldVxKk x kk) := by
  have := kk.isLt
  exact fixed_of_value (toNat_encXK (by decide) x kk) (by omega) (by omega)

theorem addVxKk (x : Reg) (kk : Byte) : Statement (.addVxKk x kk) := by
  have := kk.isLt
  exact fixed_of_value (toNat_encXK (by decide) x kk) (by omega) (by omega)

theorem ldVxVy (x : Reg) (y : Reg) : Statement (.ldVxVy x y) := by
  exact fixed_of_value (toNat_encXYN (by decide) x y 0) (by omega) (by omega)

theorem orVxVy (x : Reg) (y : Reg) : Statement (.orVxVy x y) := by
  exact fixed_of_value (toNat_encXYN (by decide) x y 1) (by omega) (by omega)

theorem andVxVy (x : Reg) (y : Reg) : Statement (.andVxVy x y) := by
  exact fixed_of_value (toNat_encXYN (by decide) x y 2) (by omega) (by omega)

theorem xorVxVy (x : Reg) (y : Reg) : Statement (.xorVxVy x y) := by
  exact fixed_of_value (toNat_encXYN (by decide) x y 3) (by omega) (by omega)

theorem addVxVy (x : Reg) (y : Reg) : Statement (.addVxVy x y) := by
  exact fixed_of_value (toNat_encXYN (by decide) x y 4) (by omega) (by omega)

theorem subVxVy (x : Reg) (y : Reg) : Statement (.subVxVy x y) := by
  exact fixed_of_value (toNat_encXYN (by decide) x y 5) (by omega) (by omega)

theorem shrVx (x : Reg) : Statement (.shrVx x) := by
  exact fixed_of_value (toNat_encXYN (by decide) x 0 6) (by omega) (by omega)

theorem subnVxVy (x : Reg) (y : Reg) : Statement (.subnVxVy x y) := by
  exact fixed_of_value (toNat_encXYN (by decide) x y 7) (by omega) (by omega)

theorem shlVx (x : Reg) : Statement (.shlVx x) := by
  exact fixed_of_value (toNat_encXYN (by decide) x 0 14) (by omega) (by omega)

theorem mulVxVy (x : Reg) (y : Reg) : Statement (.mulVxVy x y) := by
  exact fixed_of_value (toNat_encXYN (by decide) x y 1) (by omega) (by omega)

theorem divVxVy (x : Reg) (y : Reg) : Statement (.divVxVy x y) := by
  exact fixed_of_value (toNat_encXYN (by decide) x y 2) (by omega) (by omega)

theorem bcdVxVy (x : Reg) (y : Reg) : Statement (.bcdVxVy x y) := by
  exact fixed_of_value (toNat_encXYN (by decide) x y 3) (by omega) (by omega)

theorem ldI (nnn : Addr) : Statement (.ldI nnn) := by
  have := nnn.isLt
  exact fixed_of_value (toNat_encA (by decide) nnn) (by omega) (by omega)

theorem addIVx (x : Reg) : Statement (.addIVx x) := by
  exact fixed_of_value (toNat_encXS (by decide) (by decide) x) (by omega) (by omega)

theorem ldFVx (x : Reg) : Statement (.ldFVx x) := by
  exact fixed_of_value (toNat_encXS (by decide) (by decide) x) (by omega) (by omega)

theorem ldHfVx (x : Reg) : Statement (.ldHfVx x) := by
  exact fixed_of_value (toNat_encXS (by decide) (by decide) x) (by omega) (by omega)

theorem ldBVx (x : Reg) : Statement (.ldBVx x) := by
  exact fixed_of_value (toNat_encXS (by decide) (by decide) x) (by omega) (by omega)

theorem ldMemVx (x : Reg) : Statement (.ldMemVx x) := by
  exact fixed_of_value (toNat_encXS (by decide) (by decide) x) (by omega) (by omega)

theorem ldVxMem (x : Reg) : Statement (.ldVxMem x) := by
  exact fixed_of_value (toNat_encXS (by decide) (by decide) x) (by omega) (by omega)

theorem ldRVx (x : Reg) : Statement (.ldRVx x) := by
  exact fixed_of_value (toNat_encXS (by decide) (by decide) x) (by omega) (by omega)

theorem ldVxR (x : Reg) : Statement (.ldVxR x) := by
  exact fixed_of_value (toNat_encXS (by decide) (by decide) x) (by omega) (by omega)

theorem rndVxKk (x : Reg) (kk : Byte) : Statement (.rndVxKk x kk) := by
  have := kk.isLt
  exact fixed_of_value (toNat_encXK (by decide) x kk) (by omega) (by omega)

theorem drwVxVyN (x : Reg) (y : Reg) (n : Count) : Statement (.drwVxVyN x y n) := by
  exact fixed_of_value (toNat_encXYN (by decide) x y n) (by omega) (by omega)

theorem skpVx (x : Reg) : Statement (.skpVx x) := by
  exact fixed_of_value (toNat_encXS (by decide) (by decide) x) (by omega) (by omega)

theorem sknpVx (x : Reg) : Statement (.sknpVx x) := by
  exact fixed_of_value (toNat_encXS (by decide) (by decide) x) (by omega) (by omega)

theorem ldVxDt (x : Reg) : Statement (.ldVxDt x) := by
  exact fixed_of_value (toNat_encXS (by decide) (by decide) x) (by omega) (by omega)

theorem ldVxK (x : Reg) : Statement (.ldVxK x) := by
  exact fixed_of_value (toNat_encXS (by decide) (by decide) x) (by omega) (by omega)

theorem ldDtVx (x : Reg) : Statement (.ldDtVx x) := by
  exact fixed_of_value (toNat_encXS (by decide) (by decide) x) (by omega) (by omega)

theorem ldStVx (x : Reg) : Statement (.ldStVx x) := by
  exact fixed_of_value (toNat_encXS (by decide) (by decide) x) (by omega) (by omega)

theorem scd (n : Count) : Statement (.scd n) := by
  exact fixed_of_value (toNat_encWN (by decide) n) (by omega) (by omega)

theorem scr : Statement (.scr) := by unfold Statement Fixed; decide

theorem scl : Statement (.scl) := by unfold Statement Fixed; decide

theorem exit : Statement (.exit) := by unfold Statement Fixed; decide

theorem low : Statement (.low) := by unfold Statement Fixed; decide

theorem high : Statement (.high) := by unfold Statement Fixed; decide

theorem ldAVx (x : Reg) : Statement (.ldAVx x) := by
  exact fixed_of_value (toNat_encXS (by decide) (by decide) x) (by omega) (by omega)

end Sys2Proof.Laws.EncodesItsRow
end

