-- ==== Sys2Proof/Laws/Sprite.lean ====
section
/-! SUPPORT. The laws of the display surface and of the sprite compositor (45_io.md R233, R234). -/

namespace Sys2Proof.Machine

/-- The pixel law of the surface: a set pixel reads as set, every other pixel as before. -/
@[simp] theorem Display.pixel_setPixel (d : Display) (y y' : Row) (x x' : Col) (b : Bool) :
    Display.pixel (Display.setPixel d y x b) y' x' = if y' = y ∧ x' = x then b else Display.pixel d y' x' := by
  simp only [Display.pixel, Display.setPixel, Fin.getElem_fin, Vector.getElem_set]
  by_cases hy : y' = y
  · subst hy
    simp only [if_true, Vector.getElem_set, Fin.ext_iff, true_and]
    split <;> split <;> simp_all [eq_comm]
  · have : ¬ y.val = y'.val := fun e => hy (Fin.ext e.symm)
    simp [this, hy]

/-- Every pixel of the cleared surface is 0 (40_control_flow.md R120). -/
@[simp] theorem Display.pixel_clear (y : Row) (x : Col) : Display.pixel Display.clear y x = false := by
  simp [Display.pixel, Display.clear]

/-- Displays with the same pixels are equal. -/
theorem Display.ext_pixel {d e : Display} (h : ∀ y x, Display.pixel d y x = Display.pixel e y x) : d = e := by
  apply Vector.ext
  intro y hy
  apply Vector.ext
  intro x hx
  exact h ⟨y, hy⟩ ⟨x, hx⟩

/-- One use of the XOR-set operation changes its pixel only. -/
@[simp] theorem Display.pixel_xorPixel (d : Display) (op : PixelOp) (y : Row) (x : Col) :
    Display.pixel (Display.xorPixel d op).1 y x =
      if y = op.y ∧ x = op.x then (Display.pixel d op.y op.x ^^ op.bit) else Display.pixel d y x := by
  simp [Display.xorPixel]

/-- Pixel operations leave a pixel alone that none of them names. -/
theorem Display.pixel_run_untouched (d : Display) (hit : Bool) (ops : List PixelOp) (y : Row) (x : Col)
    (h : ∀ op ∈ ops, ¬ (y = op.y ∧ x = op.x)) :
    Display.pixel (Display.run d hit ops).1 y x = Display.pixel d y x := by
  induction ops generalizing d hit with
  | nil => rfl
  | cons op ops ih =>
    rw [Display.run, ih _ _ fun o ho => h o (List.mem_cons_of_mem _ ho), Display.pixel_xorPixel,
      if_neg (h op (List.mem_cons_self ..))]

/-- Two operations that name different pixels. -/
def PixelOp.apart (p q : PixelOp) : Prop := ¬ (p.y = q.y ∧ p.x = q.x)

/-- When no two operations name the same pixel, each named pixel becomes old XOR bit. -/
theorem Display.pixel_run_of_mem (d : Display) (hit : Bool) (ops : List PixelOp) (hp : ops.Pairwise PixelOp.apart)
    (op : PixelOp) (hm : op ∈ ops) :
    Display.pixel (Display.run d hit ops).1 op.y op.x = (Display.pixel d op.y op.x ^^ op.bit) := by
  induction ops generalizing d hit with
  | nil => cases hm
  | cons o ops ih =>
    have hc := List.pairwise_cons.mp hp
    rw [Display.run]
    rcases List.mem_cons.mp hm with rfl | hm
    · rw [Display.pixel_run_untouched _ _ _ _ _ (fun q hq => hc.1 q hq), Display.pixel_xorPixel,
        if_pos ⟨rfl, rfl⟩]
    · rw [ih _ _ hc.2 hm, Display.pixel_xorPixel, if_neg fun e => hc.1 op hm ⟨e.1.symm, e.2.symm⟩]

/-- When no two operations name the same pixel, the collision is reported exactly if it was set before or some
operation erases its pixel. -/
theorem Display.hit_run (d : Display) (hit : Bool) (ops : List PixelOp) (hp : ops.Pairwise PixelOp.apart) :
    (Display.run d hit ops).2 = true ↔
      hit = true ∨ ∃ op ∈ ops, Display.pixel d op.y op.x = true ∧ op.bit = true := by
  induction ops generalizing d hit with
  | nil => simp [Display.run]
  | cons o ops ih =>
    have hc := List.pairwise_cons.mp hp
    have hsame : ∀ op ∈ ops,
        Display.pixel (Display.xorPixel d o).1 op.y op.x = Display.pixel d op.y op.x := fun op ho => by
      rw [Display.pixel_xorPixel, if_neg fun e => hc.1 op ho ⟨e.1.symm, e.2.symm⟩]
    rw [Display.run, ih _ _ hc.2]
    simp only [Bool.or_eq_true, Display.xorPixel, Bool.and_eq_true, List.exists_mem_cons_iff, or_assoc]
    refine or_congr_right (or_congr_right ?_)
    constructor
    · rintro ⟨op, ho, h1, h2⟩
      exact ⟨op, ho, by rw [← hsame op ho]; exact h1, h2⟩
    · rintro ⟨op, ho, h1, h2⟩
      exact ⟨op, ho, by rw [← hsame op ho] at h1; exact h1, h2⟩

/-- The operations of a sprite, one for each bit of each row. -/
theorem mem_spriteOps (originX originY : Byte) (r0 : Nat) (bytes : List Byte) (op : PixelOp) :
    op ∈ spriteOps originX originY r0 bytes ↔
      ∃ (r b : Nat) (hr : r < bytes.length), b < 8 ∧
        op = { y := spriteRow originY (r0 + r), x := spriteCol originX b, bit := bytes[r].getLsbD (7 - b) } := by
  induction bytes generalizing r0 with
  | nil => simp [spriteOps]
  | cons byte rest ih =>
    simp only [spriteOps, List.mem_append, rowOps, List.mem_map, List.mem_range, ih]
    constructor
    · rintro (⟨b, hb, rfl⟩ | ⟨r, b, hr, hb, rfl⟩)
      · exact ⟨0, b, by simp, hb, by simp⟩
      · exact ⟨r + 1, b, by simpa using hr, hb, by simp [Nat.add_assoc, Nat.add_comm 1 r]⟩
    · rintro ⟨r, b, hr, hb, rfl⟩
      cases r with
      | zero => exact .inl ⟨b, hb, by simp⟩
      | succ r => exact .inr ⟨r, b, by simpa using hr, hb, by simp [Nat.add_assoc, Nat.add_comm 1 r]⟩

/-- The rows of a sprite of at most 32 rows are distinct (R234). -/
theorem spriteRow_inj (originY : Byte) {r r' : Nat} (h : r < 32) (h' : r' < 32)
    (e : spriteRow originY r = spriteRow originY r') : r = r' := by
  have := congrArg Fin.val e
  simp only [spriteRow, Fin.val_ofNat] at this
  omega

/-- The columns of a sprite row are distinct (R234). -/
theorem spriteCol_inj (originX : Byte) {b b' : Nat} (h : b < 8) (h' : b' < 8)
    (e : spriteCol originX b = spriteCol originX b') : b = b' := by
  have := congrArg Fin.val e
  simp only [spriteCol, Fin.val_ofNat] at this
  omega

/-- No pixel is drawn twice in one call of at most 15 rows (R234). -/
theorem spriteOps_apart (originX originY : Byte) (r0 : Nat) (bytes : List Byte) (h : r0 + bytes.length ≤ 32) :
    (spriteOps originX originY r0 bytes).Pairwise PixelOp.apart := by
  induction bytes generalizing r0 with
  | nil => simp [spriteOps]
  | cons byte rest ih =>
    simp only [List.length_cons] at h
    rw [spriteOps, List.pairwise_append]
    refine ⟨?_, ih _ (by omega), ?_⟩
    · rw [rowOps, List.pairwise_map]
      refine List.Pairwise.imp_of_mem (fun {b b'} hb hb' hlt e => ?_) (List.pairwise_lt_range (n := 8))
      have := spriteCol_inj originX (List.mem_range.mp hb) (List.mem_range.mp hb') e.2
      omega
    · intro p hp q hq e
      simp only [rowOps, List.mem_map, List.mem_range] at hp
      obtain ⟨b, -, rfl⟩ := hp
      obtain ⟨r, b', hr, -, rfl⟩ := (mem_spriteOps ..).mp hq
      have := spriteRow_inj originY (by omega) (by omega) e.1
      omega

end Sys2Proof.Machine
end

