-- ==== Sys2Proof/Tests/Slice0.lean ====
section
/-! SUPPORT. The model's own tests. Every expected result is taken from 95_test_vectors.md (the vector named in
the docstring) or from the pattern column after R95; each test takes one step. -/

namespace Sys2Proof.Tests

open Sys2Proof.Machine

/-- The reset state with a blank display, a zero auxiliary bank and a zero IR in place of the free values. -/
def blankState : State :=
  { State.reset with disp := Display.clear, rpl := Vector.replicate 8 0, ir := 0, pins := ⟨0, 0, false⟩ }

/-- A display with every pixel set. -/
def fullDisplay : Display := Vector.replicate 32 (Vector.replicate 64 true)

/-- Whether one step answers a next state that passes a check. -/
def stepGives (s : State) (check : State → Bool) : Bool :=
  match step s with
  | .next t => check t
  | .fault _ => false
  | .refused _ => false

/-- One step on a word stored at PC. -/
def runWord (s : State) (w : Nat) (check : State → Bool) : Bool := stepGives (s.withFetchWord 16 w) check

/-- One step on a word stored at PC with these values on the ports. -/
def runPins (s : State) (p : Pins) (w : Nat) (check : State → Bool) : Bool :=
  stepGives { s.withFetchWord 16 w with events := [.step p] } check

/-! ## Well-formedness: each check refuses an ill-formed term -/

theorem test_image_too_long : Image.wellFormed (List.replicate 3585 0) = false := by
  rw [Image.wellFormed, List.length_replicate]; decide

theorem test_image_largest : Image.wellFormed (List.replicate 3584 0) = true := by
  rw [Image.wellFormed, List.length_replicate]; decide

theorem test_schedule_load_after_step :
    Schedule.wellFormed true [.step ⟨0, 0, false⟩, .load 0x200 0] = false := by decide

theorem test_schedule_load_below_program : Schedule.wellFormed true [.load 0x1FF 0] = false := by decide

theorem test_schedule_load_after_reset :
    Schedule.wellFormed false [.tick, .reset, .load 0x200 1, .key 3, .halt] = true := by decide

/-- The canonical form of memory refuses a wrong order, an address that does not exist, and a listed default. -/
theorem test_memory_ill_formed :
    [Memory.wf [(0x301, 1), (0x300, 1)], Memory.wf [(0x1000, 1)], Memory.wf [(0x300, 0)]] =
    [false, false, false] := by decide

/-! ## Decoding -/

/-- Words written out bit by bit from the patterns of R95. -/
theorem test_decode_controlFlow :
    [0b0000_0000_1110_0000,
     0b0000_0000_1110_1110,
     0b0001_1010_1011_1100,
     0b0010_1010_1011_1100,
     0b1011_1010_1011_1100].map (decodeTableWord 16) =
    [some (.cls),
     some (.ret),
     some (.jp 0xABC),
     some (.call 0xABC),
     some (.jpV0 0xABC)] := by decide

/-- Words written out bit by bit from the patterns of R95. -/
theorem test_decode_skip :
    [0b0011_0111_0101_1010,
     0b0100_0111_0101_1010,
     0b0101_0111_1101_0000,
     0b0101_0111_1101_0001,
     0b0101_0111_1101_0010,
     0b0101_0111_1101_0011,
     0b1001_0111_1101_0000].map (decodeTableWord 16) =
    [some (.seVxKk 0x7 0x5A),
     some (.sneVxKk 0x7 0x5A),
     some (.seVxVy 0x7 0xD),
     some (.sgtVxVy 0x7 0xD),
     some (.sltVxVy 0x7 0xD),
     some (.sne5VxVy 0x7 0xD),
     some (.sneVxVy 0x7 0xD)] := by decide

/-- Words written out bit by bit from the patterns of R95. -/
theorem test_decode_alu :
    [0b0110_0111_0101_1010,
     0b0111_0111_0101_1010,
     0b1000_0111_1101_0000,
     0b1000_0111_1101_0001,
     0b1000_0111_1101_0010,
     0b1000_0111_1101_0011,
     0b1000_0111_1101_0100,
     0b1000_0111_1101_0101,
     0b1000_0111_0000_0110,
     0b1000_0111_1101_0111,
     0b1000_0111_0000_1110].map (decodeTableWord 16) =
    [some (.ldVxKk 0x7 0x5A),
     some (.addVxKk 0x7 0x5A),
     some (.ldVxVy 0x7 0xD),
     some (.orVxVy 0x7 0xD),
     some (.andVxVy 0x7 0xD),
     some (.xorVxVy 0x7 0xD),
     some (.addVxVy 0x7 0xD),
     some (.subVxVy 0x7 0xD),
     some (.shrVx 0x7),
     some (.subnVxVy 0x7 0xD),
     some (.shlVx 0x7)] := by decide

/-- Words written out bit by bit from the patterns of R95. -/
theorem test_decode_extArith :
    [0b1001_0111_1101_0001,
     0b1001_0111_1101_0010,
     0b1001_0111_1101_0011].map (decodeTableWord 16) =
    [some (.mulVxVy 0x7 0xD),
     some (.divVxVy 0x7 0xD),
     some (.bcdVxVy 0x7 0xD)] := by decide

/-- Words written out bit by bit from the patterns of R95. -/
theorem test_decode_memIndex :
    [0b1010_1010_1011_1100,
     0b1111_0111_0001_1110,
     0b1111_0111_0010_1001,
     0b1111_0111_0011_0000,
     0b1111_0111_0011_0011,
     0b1111_0111_0101_0101,
     0b1111_0111_0110_0101,
     0b1111_0111_0111_0101,
     0b1111_0111_1000_0101].map (decodeTableWord 16) =
    [some (.ldI 0xABC),
     some (.addIVx 0x7),
     some (.ldFVx 0x7),
     some (.ldHfVx 0x7),
     some (.ldBVx 0x7),
     some (.ldMemVx 0x7),
     some (.ldVxMem 0x7),
     some (.ldRVx 0x7),
     some (.ldVxR 0x7)] := by decide

/-- Words written out bit by bit from the patterns of R95. -/
theorem test_decode_io :
    [0b1100_0111_0101_1010,
     0b1101_0111_1101_1001,
     0b1110_0111_1001_1110,
     0b1110_0111_1010_0001,
     0b1111_0111_0000_0111,
     0b1111_0111_0000_1010,
     0b1111_0111_0001_0101,
     0b1111_0111_0001_1000].map (decodeTableWord 16) =
    [some (.rndVxKk 0x7 0x5A),
     some (.drwVxVyN 0x7 0xD 0x9),
     some (.skpVx 0x7),
     some (.sknpVx 0x7),
     some (.ldVxDt 0x7),
     some (.ldVxK 0x7),
     some (.ldDtVx 0x7),
     some (.ldStVx 0x7)] := by decide

/-- Words written out bit by bit from the patterns of R95. -/
theorem test_decode_unsupported :
    [0b0000_0000_1100_1001,
     0b0000_0000_1111_1011,
     0b0000_0000_1111_1100,
     0b0000_0000_1111_1101,
     0b0000_0000_1111_1110,
     0b0000_0000_1111_1111,
     0b1111_0111_1001_0100].map (decodeTableWord 16) =
    [some (.scd 0x9),
     some (.scr),
     some (.scl),
     some (.exit),
     some (.low),
     some (.high),
     some (.ldAVx 0x7)] := by decide

/-- 2.7 UI10, UI12, UI13, UI14, UI15: words that are no instruction. -/
theorem test_decode_invalid :
    [0x0123, 0x00E1, 0x5124, 0x8008, 0x812F, 0x9004, 0xE09F, 0xFFFF].map (decodeTableWord 16) =
    List.replicate 8 none := by decide

/-! ## One step of each instruction -/

/-- 95_test_vectors.md CF1. -/
theorem test_cls_clears_pixel : runWord (blankState.setDisp fullDisplay) 0x00E0
    (fun t => !Display.pixel t.disp 31 63 && !Display.pixel t.disp 0 0 && t.pc == 0x202 && t.getV 15 == 0) = true := by decide

/-- 95_test_vectors.md CF2. -/
theorem test_ret_pops : runWord ({ blankState with sp := 1, stack := blankState.stack.set 0 0x206 }.setPc 0x20C) 0x00EE
    (fun t => t.sp == 0 && t.pc == 0x206 && t.stack[0] == 0x206) = true := by decide

/-- 95_test_vectors.md CF3. -/
theorem test_ret_wraps_on_empty_stack : runWord { blankState with stack := blankState.stack.set 15 0x345 } 0x00EE
    (fun t => t.sp == 15 && t.pc == 0x345) = true := by decide

/-- 95_test_vectors.md CF5. -/
theorem test_jp : runWord (blankState.setPc 0x20A) 0x1204
    (fun t => t.pc == 0x204) = true := by decide

/-- 95_test_vectors.md CF7. -/
theorem test_call_pushes_next_address : runWord (blankState.setPc 0x204) 0x220A
    (fun t => t.stack[0] == 0x206 && t.sp == 1 && t.pc == 0x20A) = true := by decide

/-- 95_test_vectors.md CF8 and CF9. -/
theorem test_call_wraps_stack_and_pc : runWord ({ blankState with sp := 15 }.setPc 0xFFE) 0x2ABC
    (fun t => t.stack[15] == 0 && t.sp == 0 && t.pc == 0xABC) = true := by decide

/-- 95_test_vectors.md CF11. -/
theorem test_jpV0_wraps : runWord (blankState.setV 0 2) 0xBFFF
    (fun t => t.pc == 0x001) = true := by decide

/-- 95_test_vectors.md CF12. -/
theorem test_jpV0_uses_V0 : runWord ((blankState.setV 0 2).setV 3 0x50) 0xB300
    (fun t => t.pc == 0x302) = true := by decide

/-- 95_test_vectors.md SK3. -/
theorem test_seVxKk_takes_VF : runWord (blankState.setV 15 1) 0x3F01
    (fun t => t.pc == 0x204) = true := by decide

/-- 95_test_vectors.md SK16. -/
theorem test_seVxKk_wraps : runWord (blankState.setPc 0xFFE) 0x3000
    (fun t => t.pc == 0x002) = true := by decide

/-- 95_test_vectors.md SK4. -/
theorem test_sneVxKk_taken : runWord (blankState.setV 3 0x10) 0x4311
    (fun t => t.pc == 0x204) = true := by decide

/-- 95_test_vectors.md SK5. -/
theorem test_sneVxKk_not_taken : runWord (blankState.setV 3 0x10) 0x4310
    (fun t => t.pc == 0x202) = true := by decide

/-- 95_test_vectors.md SK6. -/
theorem test_seVxVy_taken : runWord ((blankState.setV 1 7).setV 2 7) 0x5120
    (fun t => t.pc == 0x204) = true := by decide

/-- 95_test_vectors.md SK8. -/
theorem test_sgt_unsigned : runWord ((blankState.setV 0 0x80).setV 1 0x7F) 0x5011
    (fun t => t.pc == 0x204) = true := by decide

/-- 95_test_vectors.md SK9. -/
theorem test_sgt_equal : runWord ((blankState.setV 0 9).setV 1 9) 0x5011
    (fun t => t.pc == 0x202) = true := by decide

/-- 95_test_vectors.md SK10. -/
theorem test_slt_greater : runWord ((blankState.setV 0 0x80).setV 1 0x7F) 0x5012
    (fun t => t.pc == 0x202) = true := by decide

/-- 95_test_vectors.md SK11. -/
theorem test_slt_less : runWord ((blankState.setV 0 0x7F).setV 1 0x80) 0x5012
    (fun t => t.pc == 0x204) = true := by decide

/-- 95_test_vectors.md SK12. -/
theorem test_sne5_taken : runWord ((blankState.setV 4 1).setV 5 2) 0x5453
    (fun t => t.pc == 0x204) = true := by decide

/-- 95_test_vectors.md SK13. -/
theorem test_sne5_not_taken : runWord ((blankState.setV 4 2).setV 5 2) 0x5453
    (fun t => t.pc == 0x202) = true := by decide

/-- 95_test_vectors.md SK15. -/
theorem test_sne9_taken : runWord ((blankState.setV 4 1).setV 5 2) 0x9450
    (fun t => t.pc == 0x204) = true := by decide

/-- 95_test_vectors.md SK14. -/
theorem test_sne9_not_taken : runWord ((blankState.setV 4 2).setV 5 2) 0x9450
    (fun t => t.pc == 0x202) = true := by decide

/-- 95_test_vectors.md AL1. -/
theorem test_ldVxKk : runWord blankState 0x6A2F
    (fun t => t.getV 10 == 0x2F && t.pc == 0x202) = true := by decide

/-- 95_test_vectors.md AL3. -/
theorem test_addVxKk_wraps_without_flag : runWord ((blankState.setV 0 0x05).setV 15 7) 0x70FF
    (fun t => t.getV 0 == 0x04 && t.getV 15 == 7) = true := by decide

/-- 95_test_vectors.md AL5. -/
theorem test_ldVxVy_saves_flag : runWord (blankState.setV 15 1) 0x83F0
    (fun t => t.getV 3 == 1) = true := by decide

/-- 95_test_vectors.md AL6. -/
theorem test_or_keeps_VF : runWord (((blankState.setV 0 0xF0).setV 1 0x0F).setV 15 1) 0x8011
    (fun t => t.getV 0 == 0xFF && t.getV 15 == 1) = true := by decide

/-- 95_test_vectors.md AL7. -/
theorem test_and_keeps_VF : runWord (((blankState.setV 0 0xF0).setV 1 0x3C).setV 15 1) 0x8012
    (fun t => t.getV 0 == 0x30 && t.getV 15 == 1) = true := by decide

/-- 95_test_vectors.md AL8. -/
theorem test_xor_keeps_VF : runWord (((blankState.setV 0 0xF0).setV 1 0x3C).setV 15 1) 0x8013
    (fun t => t.getV 0 == 0xCC && t.getV 15 == 1) = true := by decide

/-- 95_test_vectors.md S1. -/
theorem test_add_carries : runWord ((blankState.setV 1 0xC8).setV 2 0x64) 0x8124
    (fun t => t.getV 1 == 0x2C && t.getV 15 == 1) = true := by decide

/-- 95_test_vectors.md AL11. -/
theorem test_add_into_VF_keeps_carry : runWord ((blankState.setV 15 0xF0).setV 1 0x20) 0x8F14
    (fun t => t.getV 15 == 1) = true := by decide

/-- 95_test_vectors.md S2. -/
theorem test_sub_borrows : runWord ((blankState.setV 1 5).setV 2 7) 0x8125
    (fun t => t.getV 1 == 0xFE && t.getV 15 == 0) = true := by decide

/-- 95_test_vectors.md S2. -/
theorem test_sub_equal : runWord ((blankState.setV 1 7).setV 2 7) 0x8125
    (fun t => t.getV 1 == 0 && t.getV 15 == 1) = true := by decide

/-- 95_test_vectors.md AL16. -/
theorem test_shr_ignores_Y : runWord ((blankState.setV 2 0x05).setV 3 0xFF) 0x8236
    (fun t => t.getV 2 == 0x02 && t.getV 15 == 1 && t.getV 3 == 0xFF) = true := by decide

/-- 95_test_vectors.md AL18. -/
theorem test_shr_of_VF : runWord (blankState.setV 15 2) 0x8FF6
    (fun t => t.getV 15 == 0) = true := by decide

/-- 95_test_vectors.md AL20. -/
theorem test_subn_borrows : runWord ((blankState.setV 1 7).setV 2 5) 0x8127
    (fun t => t.getV 1 == 0xFE && t.getV 15 == 0) = true := by decide

/-- 95_test_vectors.md AL19. -/
theorem test_subn_no_borrow : runWord ((blankState.setV 1 5).setV 2 7) 0x8127
    (fun t => t.getV 1 == 2 && t.getV 15 == 1) = true := by decide

/-- 95_test_vectors.md S3. -/
theorem test_shl_out : runWord (blankState.setV 2 0x81) 0x820E
    (fun t => t.getV 2 == 0x02 && t.getV 15 == 1) = true := by decide

/-- 95_test_vectors.md AL25. -/
theorem test_shl_of_VF : runWord (blankState.setV 15 0x41) 0x8FFE
    (fun t => t.getV 15 == 0) = true := by decide

/-- 95_test_vectors.md EX1. -/
theorem test_mul_splits_product : runWord ((blankState.setV 0 0x30).setV 1 0x39) 0x9011
    (fun t => t.getV 0 == 0xB0 && t.getV 15 == 0x0A) = true := by decide

/-- 95_test_vectors.md EX4. -/
theorem test_mul_into_VF : runWord ((blankState.setV 15 0x10).setV 1 0x10) 0x9F11
    (fun t => t.getV 15 == 0x01) = true := by decide

/-- 95_test_vectors.md EX6. -/
theorem test_div_quotient_and_remainder : runWord ((blankState.setV 0 0xB0).setV 3 0x07) 0x9032
    (fun t => t.getV 0 == 0x19 && t.getV 15 == 0x01) = true := by decide

/-- 95_test_vectors.md EX11. -/
theorem test_div_by_zero_goes_on : runWord (blankState.setV 0 0x2A) 0x9012
    (fun t => t.pc == 0x202 && t.status == .running && t.getV 1 == 0) = true := by decide

/-- 95_test_vectors.md S5. -/
theorem test_bcd16_digits : runWord (((blankState.setV 2 0x30).setV 0 0x39).setI 0x300) 0x9203
    (fun t => Memory.readBytes t.mem 0x300 5 == [1, 2, 3, 4, 5] && t.i == 0x300) = true := by decide

/-- 95_test_vectors.md EX14. -/
theorem test_bcd16_wraps : runWord (((blankState.setV 2 0x30).setV 0 0x39).setI 0xFFE) 0x9203
    (fun t => Memory.readBytes t.mem 0xFFE 5 == [1, 2, 3, 4, 5] && Memory.read t.mem 2 == 5) = true := by decide

/-- 95_test_vectors.md MI1. -/
theorem test_ldI : runWord blankState 0xA300
    (fun t => t.i == 0x300) = true := by decide

/-- 95_test_vectors.md MI2. -/
theorem test_addI_overflow : runWord ((blankState.setI 0xFF0).setV 1 0x20) 0xF11E
    (fun t => t.i == 0x010 && t.getV 15 == 1) = true := by decide

/-- 95_test_vectors.md MI7. -/
theorem test_addI_of_VF : runWord ((blankState.setI 0x010).setV 15 1) 0xFF1E
    (fun t => t.i == 0x011 && t.getV 15 == 0) = true := by decide

/-- 95_test_vectors.md MI10. -/
theorem test_ldF_unmasked : runWord (blankState.setV 0 0xFF) 0xF029
    (fun t => t.i == 0x4FB) = true := by decide

/-- 95_test_vectors.md MI8. -/
theorem test_ldF_digit : runWord (blankState.setV 0 0x0A) 0xF029
    (fun t => t.i == 0x032) = true := by decide

/-- 95_test_vectors.md MI13. -/
theorem test_ldHF_unmasked : runWord (blankState.setV 0 0xFF) 0xF030
    (fun t => t.i == 0xA46) = true := by decide

/-- 95_test_vectors.md MI11. -/
theorem test_ldHF_digit : runWord (blankState.setV 0 3) 0xF030
    (fun t => t.i == 0x06E) = true := by decide

/-- 95_test_vectors.md S5. -/
theorem test_ldB_digits : runWord ((blankState.setV 0 0x9D).setI 0x300) 0xF033
    (fun t => Memory.readBytes t.mem 0x300 3 == [1, 5, 7] && t.i == 0x300) = true := by decide

/-- 95_test_vectors.md MI16. -/
theorem test_ldB_wraps : runWord ((blankState.setV 4 123).setI 0xFFF) 0xF433
    (fun t => Memory.read t.mem 0xFFF == 1 && Memory.read t.mem 0 == 2 && Memory.read t.mem 1 == 3) = true := by decide

/-- 95_test_vectors.md MI17. -/
theorem test_ldMem_stores_X_plus_one : runWord ((((blankState.setV 0 0xAA).setV 1 0xBB).setV 2 0xCC).setI 0x400) 0xF155
    (fun t => Memory.readBytes t.mem 0x400 3 == [0xAA, 0xBB, 0] && t.i == 0x400) = true := by decide

/-- 95_test_vectors.md MI20. -/
theorem test_ldMem_wraps : runWord (((blankState.setV 0 1).setV 1 2).setI 0xFFF) 0xF155
    (fun t => Memory.read t.mem 0xFFF == 1 && Memory.read t.mem 0 == 2) = true := by decide

/-- 95_test_vectors.md MI21. -/
theorem test_ldVxMem_loads : runWord ((blankState.setMem (Memory.writeBytes [] 0x300 [1, 5, 7, 9])).setI 0x300) 0xF265
    (fun t => t.getV 0 == 1 && t.getV 1 == 5 && t.getV 2 == 7 && t.getV 3 == 0) = true := by decide

/-- 95_test_vectors.md MI23. -/
theorem test_ldVxMem_reads_code : runWord (blankState.setI 0x200) 0xF165
    (fun t => t.getV 0 == 0xF1 && t.getV 1 == 0x65) = true := by decide

/-- 95_test_vectors.md MI24. -/
theorem test_ldR_moves_low_two_bits_of_count : runWord (((blankState.setV 0 0x11).setV 1 0x22).setV 2 0x33) 0xF175
    (fun t => t.rpl[0] == 0x11 && t.rpl[1] == 0x22 && t.rpl[2] == 0) = true := by decide

/-- 95_test_vectors.md MI26. -/
theorem test_ldR_moves_none : runWord (blankState.setV 0 0x11) 0xF375
    (fun t => t.rpl == blankState.rpl && t.pc == 0x202) = true := by decide

/-- 95_test_vectors.md MI30. -/
theorem test_ldVxR_moves_three : runWord (blankState.setRpl (((blankState.rpl.set 0 0x11).set 1 0x22).set 2 0x33)) 0xF685
    (fun t => t.getV 0 == 0x11 && t.getV 1 == 0x22 && t.getV 2 == 0x33 && t.getV 3 == 0) = true := by decide

/-- 95_test_vectors.md MI31. -/
theorem test_ldVxR_moves_none : runWord (blankState.setRpl (blankState.rpl.set 0 0x11)) 0xF785
    (fun t => t.v == blankState.v) = true := by decide

/-- 95_test_vectors.md IO1. -/
theorem test_rnd_masks : runPins blankState ⟨0, 0xA7, false⟩ 0xC20F
    (fun t => t.getV 2 == 0x07) = true := by decide

/-- 95_test_vectors.md IO4. -/
theorem test_drw_sets_pixel : runWord (((blankState.setMem (Memory.write [] 0x210 0x80)).setI 0x210).setV 1 3 |>.setV 2 4) 0xD121
    (fun t => Display.pixel t.disp 4 3 && !Display.pixel t.disp 4 4 && t.getV 15 == 0) = true := by decide

/-- 95_test_vectors.md IO7. -/
theorem test_drw_wraps_each_pixel : runWord (((blankState.setMem (Memory.write [] 0x210 0xC0)).setI 0x210).setV 1 0xFF) 0xD121
    (fun t => Display.pixel t.disp 0 63 && Display.pixel t.disp 0 0 && t.getV 15 == 0) = true := by decide

/-- 95_test_vectors.md IO6, at row 0. -/
theorem test_drw_reports_erasure : runWord ((((blankState.setMem (Memory.write [] 0x210 0xC0)).setI 0x210).setV 1 2).setDisp (Display.setPixel Display.clear 0 3 true)) 0xD121
    (fun t => Display.pixel t.disp 0 2 && !Display.pixel t.disp 0 3 && t.getV 15 == 1) = true := by decide

/-- 95_test_vectors.md IO14. -/
theorem test_skp_down : runPins (blankState.setV 5 0x1A) ⟨0x0400, 0, false⟩ 0xE59E
    (fun t => t.pc == 0x204 && t.krm == 0x0400) = true := by decide

/-- 95_test_vectors.md IO13. -/
theorem test_skp_up : runPins (blankState.setV 5 0x0A) ⟨0, 0, false⟩ 0xE59E
    (fun t => t.pc == 0x202 && t.krm == 0x0400) = true := by decide

/-- 95_test_vectors.md IO15. -/
theorem test_sknp_down : runPins (blankState.setV 5 0x0A) ⟨0x0400, 0, false⟩ 0xE5A1
    (fun t => t.pc == 0x202 && t.krm == 0x0400) = true := by decide

/-- 95_test_vectors.md IO16. -/
theorem test_sknp_up : runPins (blankState.setV 5 0x0A) ⟨0xFBFF, 0, false⟩ 0xE5A1
    (fun t => t.pc == 0x204 && t.krm == 0x0400) = true := by decide

/-- 95_test_vectors.md IO18. -/
theorem test_ldVxDt : runWord (blankState.setDt 3) 0xF207
    (fun t => t.getV 2 == 3) = true := by decide

/-- 95_test_vectors.md IO25. -/
theorem test_ldVxK_waits : runWord blankState 0xF10A
    (fun t => t.status == .waitKey && t.pc == 0x202 && t.getV 1 == 0) = true := by decide

/-- 95_test_vectors.md IO19. -/
theorem test_ldDtVx : runWord (blankState.setV 0 0x3C) 0xF015
    (fun t => t.dt == 60) = true := by decide

/-- 95_test_vectors.md IO20. -/
theorem test_ldStVx_sounds : runWord (blankState.setV 0 2) 0xF018
    (fun t => t.st == 2 && t.toneEn) = true := by decide

/-- 95_test_vectors.md IO21. -/
theorem test_ldStVx_mutes : runWord (blankState.setSt 5) 0xF018
    (fun t => t.st == 0 && !t.toneEn) = true := by decide

/-- 95_test_vectors.md UI1. -/
theorem test_scd_is_unsupported : runWord blankState 0x00C4
    (fun t => t.status == .unsupported && t.diag == 0x00C4 && t.pc == 0x202) = true := by decide

/-- 95_test_vectors.md UI3. -/
theorem test_scr_is_unsupported : runWord blankState 0x00FB
    (fun t => t.status == .unsupported && t.diag == 0x00FB && t.pc == 0x202) = true := by decide

/-- 95_test_vectors.md UI4. -/
theorem test_scl_is_unsupported : runWord blankState 0x00FC
    (fun t => t.status == .unsupported && t.diag == 0x00FC && t.pc == 0x202) = true := by decide

/-- 95_test_vectors.md UI5 and S8. -/
theorem test_exit_is_unsupported : runWord blankState 0x00FD
    (fun t => t.status == .unsupported && t.diag == 0x00FD && t.pc == 0x202) = true := by decide

/-- 95_test_vectors.md UI6. -/
theorem test_low_is_unsupported : runWord blankState 0x00FE
    (fun t => t.status == .unsupported && t.diag == 0x00FE && t.pc == 0x202) = true := by decide

/-- 95_test_vectors.md UI7. -/
theorem test_high_is_unsupported : runWord blankState 0x00FF
    (fun t => t.status == .unsupported && t.diag == 0x00FF && t.pc == 0x202) = true := by decide

/-- 95_test_vectors.md UI8. -/
theorem test_ldA_is_unsupported : runWord blankState 0xF394
    (fun t => t.status == .unsupported && t.diag == 0xF394 && t.pc == 0x202) = true := by decide

/-- 95_test_vectors.md S7. -/
theorem test_invalid_class5 : runWord blankState 0x5004
    (fun t => t.status == .invalid && t.diag == 0x5004 && t.pc == 0x202) = true := by decide

/-- 95_test_vectors.md UI9. -/
theorem test_invalid_zero_word : runWord blankState 0x0000
    (fun t => t.status == .invalid && t.diag == 0x0000 && t.pc == 0x202) = true := by decide

/-- 95_test_vectors.md UI11. -/
theorem test_invalid_class0_needs_whole_word : runWord blankState 0x01E0
    (fun t => t.status == .invalid && t.diag == 0x01E0 && t.pc == 0x202) = true := by decide

/-- 95_test_vectors.md UI16. -/
theorem test_invalid_classF : runWord blankState 0xF195
    (fun t => t.status == .invalid && t.diag == 0xF195 && t.pc == 0x202) = true := by decide

/-- 95_test_vectors.md CF13. -/
theorem test_fetch_wraps : runWord (blankState.setPc 0xFFF) 0x1234
    (fun t => t.pc == 0x234) = true := by decide

/-- 95_test_vectors.md CF14. -/
theorem test_fetch_at_odd_address : runWord (blankState.setPc 0x201) 0x6107
    (fun t => t.getV 1 == 7 && t.pc == 0x203) = true := by decide

/-! ## Events -/

/-- IO22. -/
theorem test_tick_counts_down :
    stepGives { blankState with dt := 2, st := 1, events := [.tick] }
      (fun t => t.dt == 1 && t.st == 0 && !t.toneEn && t.pc == 0x200) = true := by decide

/-- IO23. -/
theorem test_tick_stops_at_zero :
    stepGives { blankState with events := [.tick] } (fun t => t.dt == 0 && t.st == 0) = true := by decide

/-- IO27 and IO28: the key goes to the register named in IR. -/
theorem test_key_event_writes_register :
    stepGives { blankState with status := .waitKey, ir := 0xF10A, events := [.key 10] }
      (fun t => t.getV 1 == 0x0A && t.status == .running && t.krm == 0) = true := by decide

/-- IO32. -/
theorem test_key_event_not_enabled :
    stepGives { blankState with ir := 0xF10A, events := [.key 10] }
      (fun t => t.getV 1 == 0 && t.status == .running) = true := by decide

/-- IO29. -/
theorem test_halt_ends_wait :
    stepGives { blankState with status := .waitKey, ir := 0xF10A, events := [.halt] }
      (fun t => t.status == .halted && t.getV 1 == 0) = true := by decide

/-- IO30: the halt request wins and the word is not fetched. -/
theorem test_halt_wins_over_step :
    stepGives { blankState with events := [.step ⟨0, 0, true⟩] }
      (fun t => t.status == .halted && t.pc == 0x200) = true := by decide

/-- IO31. -/
theorem test_no_step_when_halted :
    stepGives { blankState with status := .halted, events := [.step ⟨0, 0, false⟩] } (fun t => t.pc == 0x200 && t.status == .halted) = true := by
  decide

/-- 2.9: reset leaves PC = 0x200 and the small font; the first step with no program is invalid. -/
theorem test_reset_then_first_step :
    (State.reset.pc == 0x200 && Memory.readBytes State.reset.mem 0x4B 5 == [0xF0, 0x80, 0xF0, 0x80, 0x80] &&
      stepGives { State.reset with events := [.step ⟨0, 0, false⟩] } (fun t => t.status == .invalid && t.diag == 0 && t.pc == 0x202)) = true := by
  decide

/-- R340: reset applies after a terminal outcome. -/
theorem test_reset_event :
    stepGives { blankState with status := .invalid, pc := 0x300, dt := 7, events := [.reset] }
      (fun t => t.status == .running && t.pc == 0x200 && t.dt == 0 && t.loadOpen) = true := by decide

/-- R344: a program byte is loaded before the run, and refused after it has started. -/
theorem test_load_event :
    (stepGives { blankState with events := [.load 0x200 0x12] } (fun t => Memory.read t.mem 0x200 == 0x12) &&
      !stepGives { blankState with loadOpen := false, events := [.load 0x200 0x12] } (fun _ => true)) = true := by
  decide

/-- The encoder on one instruction of each format (R92, R95). -/
theorem test_encode_formats :
    [encode .ret, encode (.scd 4), encode (.jpV0 0x300), encode (.sneVxKk 3 0x11), encode (.shrVx 2),
      encode (.drwVxVyN 1 2 5), encode (.ldBVx 0)] =
    [0x00EE, 0x00C4, 0xB300, 0x4311, 0x8206, 0xD125, 0xF033] := by decide

/-! ## Witnesses: for each statement with hypotheses, a state and operands that meet them together -/

/-- The state before the fetch of a scheduled step: the event taken, and the ports sampled. -/
def sampled (s : State) : State := s.dequeue.sample (freePins (s.draws - 1))

/-- A running state with this word at PC. -/
def ready (w : Nat) : State := blankState.withFetchWord 16 w

theorem ready_stepsFrom (w : Nat) : (ready w).stepsFrom (sampled (ready w)) := ⟨rfl, _, rfl, rfl, rfl⟩

theorem witness_EncodeOfDecodeIsTheWord :
    decode 0x1204 = .ok (.jp 0x204) ∧ decode 0x8236 = .ok (.shrVx 2) ∧ decode 0x82FE = .ok (.shlVx 2) := by decide

theorem witness_DecodeAgreesWithTheOpcodeTable :
    (⟨"SCD_n", 0x00C0, 0xFFF0⟩ : OpcodeRow) ∈ opcodeTable ∧ (0x00CF : Word) &&& 0xFFF0 = 0x00C0 := by
  decide

theorem witness_InvalidWordsAreThoseTheSpecLists : decode 0x5004 = .error (.invalidOpcode 0x5004) := by decide

theorem witness_UnusedFieldsTakeNoPart_class0 :
    (0x01E0 : Word).toNat / 4096 = 0 ∧ (0x01E0 : Word).toNat / 256 % 16 ≠ 0 := by decide

theorem witness_UnusedFieldsTakeNoPart_classEF :
    decode (encXS 14 0 (0x9E : Byte).toNat) = .ok (.skpVx 0) ∧
    decode (encXS 15 15 (0x94 : Byte).toNat) = .ok (.ldAVx 15) := by decide

/-- A step as the only listed event, and one with more events after it. -/
theorem witness_StepRunsTheDecodedInstruction :
    ((ready 0x6107).stepsFrom (sampled (ready 0x6107)) ∧
      decode (sampled (ready 0x6107)).fetchWord = .ok (.ldVxKk 1 7)) ∧
    ∃ (s s0 : State) (p : Pins), s.events = [.step p, .tick] ∧ s.stepsFrom s0 ∧
      decode s0.fetchWord = .ok (.ldVxKk 1 7) :=
  ⟨⟨ready_stepsFrom _, by decide⟩,
    { ready 0x6107 with events := [.step ⟨5, 9, false⟩, .tick] },
    ({ ready 0x6107 with events := [.tick] } : State).sample ⟨5, 9, false⟩, ⟨5, 9, false⟩,
    rfl, ⟨rfl, _, rfl, rfl, rfl⟩, by decide⟩

theorem witness_WordWithoutRowRaisesInvalidOpcode :
    (ready 0x5004).stepsFrom (sampled (ready 0x5004)) ∧
    ∀ row ∈ opcodeTable, (sampled (ready 0x5004)).fetchWord &&& row.mask ≠ row.pattern :=
  ⟨ready_stepsFrom _, by decide⟩

theorem witness_OpcodeErrorsWriteDiagAndStatusOnly_unsupported :
    (ready 0xF394).stepsFrom (sampled (ready 0xF394)) ∧
    ∃ i, decode (sampled (ready 0xF394)).fetchWord = .ok i ∧ isExtension i = true :=
  ⟨ready_stepsFrom _, .ldAVx 3, by decide, rfl⟩

theorem witness_OpcodeErrorsWriteDiagAndStatusOnly_invalid :
    (ready 0).stepsFrom (sampled (ready 0)) ∧ ∃ e, decode (sampled (ready 0)).fetchWord = .error e :=
  ⟨ready_stepsFrom _, .invalidOpcode 0, by decide⟩

theorem witness_OpcodeErrorsWriteDiagAndStatusOnly_after :
    ∃ (t u : State) (p : Pins), (t.status = .unsupported ∧ t.nextEvent = .step p) ∧
      (u.status = .invalid ∧ u.nextEvent = .step p) :=
  ⟨{ blankState with status := .unsupported, events := [.step ⟨0, 0, false⟩] },
    { blankState with status := .invalid, events := [.step ⟨0, 0, false⟩] }, _, ⟨rfl, rfl⟩, ⟨rfl, rfl⟩⟩

theorem witness_ExitIsUnsupportedNotHalt :
    (ready 0xFD).stepsFrom (sampled (ready 0xFD)) ∧ (sampled (ready 0xFD)).fetchWord = 0x00FD :=
  ⟨ready_stepsFrom _, by decide⟩

theorem witness_ExtensionOpcodesRaiseUnsupported :
    Instr.ldAVx 15 ∈ [Instr.scd 15, .scr, .scl, .exit, .low, .high, .ldAVx 15] := by decide

theorem witness_PcAfterEachInstruction_copies :
    ∃ t u, exec (.ldVxKk 1 7) blankState = .next t ∧
      exec (.ldVxKk 1 7) { blankState with pc := 0xFFF } = .next u ∧ ∀ nnn, Instr.ldVxKk 1 7 ≠ .call nnn :=
  ⟨_, _, rfl, rfl, fun _ h => (by cases h)⟩

theorem witness_PcAfterEachInstruction_wait :
    ∃ (s : State) (p : Pins), s.status = .waitKey ∧ s.nextEvent = .step p :=
  ⟨{ blankState with status := .waitKey, events := [.step ⟨0, 0, true⟩] }, ⟨0, 0, true⟩, rfl, rfl⟩

theorem witness_PcAfterEachInstruction_call :
    ∃ t u, exec (.call 0x20A) blankState = .next t ∧
      exec (.call 0x20A) { blankState with pc := 0xFFF } = .next u :=
  ⟨_, _, rfl, rfl⟩

/-- Boundary addresses of the three ranges; NLARGE is at least 10 and at most 16. -/
theorem witness_ResetLeavesTheStatedValues :
    (79 : Addr).toNat < 80 ∧
    (80 ≤ (179 : Addr).toNat ∧ (179 : Addr).toNat < 80 + 10 * Config.nLarge) ∧
    80 + 10 * Config.nLarge ≤ (240 : Addr).toNat := by
  unfold Config.nLarge
  cases Config.hasSixteenLargeGlyphs <;> decide

theorem witness_ResetEventGivesTheResetState :
    ∃ s : State, s.nextEvent = .reset := ⟨{ blankState with events := [.reset] }, rfl⟩

/-- A state inside the key wait and one at an instruction; both step on. -/
theorem witness_EveryStepKeepsTheInvariant :
    ∃ s u : State, s.Inv ∧ s.status = .waitKey ∧ s.safeStep ∧ u.Inv ∧ u.status = .running ∧ u.safeStep :=
  ⟨{ blankState with status := .waitKey, ir := 0xF10A, events := [.key 10] }, ready 0x2ABC,
    ⟨rfl, fun _ => ⟨1, by decide⟩, fun h => (by cases h), fun h => (by cases h)⟩, rfl, ⟨_, rfl⟩,
    ⟨by decide, fun h => (by cases h), fun h => (by cases h), fun h => (by cases h)⟩, rfl, ⟨_, rfl⟩⟩

theorem witness_EveryStepKeepsTheInvariant_terminal :
    ∃ s u : State, s.Inv ∧ s.status = .unsupported ∧ s.safeStep ∧ u.Inv ∧ u.status = .invalid ∧ u.safeStep :=
  ⟨{ blankState with status := .unsupported, ir := 0x00FD, diag := 0x00FD, events := [.tick] },
    { blankState with status := .invalid, ir := 0x5004, diag := 0x5004, events := [.step ⟨0, 0, false⟩] },
    ⟨rfl, fun h => (by cases h), fun _ => ⟨rfl, .exit, by decide, rfl⟩, fun h => (by cases h)⟩, rfl, ⟨_, rfl⟩,
    ⟨rfl, fun h => (by cases h), fun h => (by cases h), fun _ => ⟨rfl, by decide⟩⟩, rfl, ⟨_, rfl⟩⟩

theorem witness_FlagRuleForEveryInstruction :
    (blankState.setV 2 7 |>.getV 2).toNat ≠ 0 ∧ (blankState.getV 2).toNat = 0 ∧
    (1 : Reg) ≠ 15 ∧ ∃ t, exec (.orVxVy 1 2) blankState = .next t :=
  ⟨by decide, by decide, by decide, _, rfl⟩

theorem witness_MultiplyDivideAndBcdLaws :
    (blankState.setV 2 7 |>.getV 2).toNat ≠ 0 ∧ (blankState.getV 2).toNat = 0 ∧ (1 : Reg) ≠ 15 := by decide

/-- A byte inside and a byte just outside the stored range, at the wrap. -/
theorem witness_LoadBcdStoresThreeDigits :
    2 < (bcd3 0xFF).length ∧ (bcd3 0xFF).length ≤ ((0x001 : Addr) - 0xFFE).toNat := by decide

theorem witness_StoreRegistersWritesXPlusOneBytes :
    (15 : Reg).val ≤ (15 : Reg).val ∧ (15 : Reg).val + 1 ≤ ((0x00E : Addr) - 0xFFE).toNat ∧
    (0 : Reg).val ≤ (0 : Reg).val ∧ (0 : Reg).val + 1 ≤ ((0x401 : Addr) - 0x400).toNat := by decide

theorem witness_LoadRegistersReadsXPlusOneBytes :
    ((14 : Reg).val < (15 : Reg).val ∧ (14 : Reg).val ≤ (14 : Reg).val) ∧
    ∃ (s u t : State), exec (.ldMemVx 15) s = .next t ∧ u.mem = t.mem ∧ u.i = s.i :=
  ⟨by decide, blankState, _, _, rfl, rfl, rfl⟩

theorem witness_EachPartIsWrittenByItsInstructionsOnly :
    ∃ t, exec (.skpVx 5) { blankState with krm := 2 } = .next t ∧
      ({ blankState with krm := 2 } : State).krm.getLsbD (1 : Fin 16).val = true ∧ 3 ≤ (3 : Fin 8).val :=
  ⟨_, rfl, by decide, by decide⟩

theorem witness_StoreIsSeenByTheNextFetch :
    ∃ (s : State) (x : Reg), 1 ≤ x.val ∧ s.i = s.pc := ⟨blankState.setI 0x200, 1, by decide, rfl⟩

theorem witness_ReadGivesTheLastByteWritten : Memory.wf [(0x200, 1), (0xFFF, 2)] = true := by decide

theorem witness_CanonicalMemoriesThatReadAlikeAreEqual :
    ∃ m m' : Memory, Memory.wf m = true ∧ Memory.wf m' = true ∧ ∀ a : Addr, Memory.read m a = Memory.read m' a :=
  ⟨[(0x300, 1)], Memory.write (Memory.write [(0x300, 1)] 0x200 5) 0x200 0, by decide, by decide, fun a => by
    rw [show Memory.write (Memory.write [(0x300, 1)] 0x200 5) 0x200 0 = [(0x300, 1)] by decide]⟩

/-- The largest sprite; its last pixel, and a pixel it does not reach. -/
theorem witness_CompositorDrawsWithWrapAndReportsErasure :
    (List.replicate 15 (0xFF : Byte)).length ≤ 15 ∧ 14 < (List.replicate 15 (0xFF : Byte)).length ∧
    ∀ r b : Nat, r < (List.replicate 15 (0xFF : Byte)).length → b < 8 →
      ¬ ((15 : Row).val = (0 + r) % 32 ∧ (0 : Col).val = (0 + b) % 64) := by
  refine ⟨by decide, by decide, fun r b hr _ h => ?_⟩
  simp only [List.length_replicate] at hr
  have : (15 : Row).val = 15 := rfl
  omega

theorem witness_DrawingTwiceRestoresTheDisplay :
    (List.replicate 15 (0xFF : Byte)).length ≤ 15 ∧ ∀ y x, Display.pixel Display.clear y x = false :=
  ⟨by decide, fun y x => by simp [Display.pixel, Display.clear]⟩

theorem witness_KeyWaitTakesTheKeyIntoItsRegister :
    (ready 0xFF0A).stepsFrom (sampled (ready 0xFF0A)) ∧ (sampled (ready 0xFF0A)).fetchWord = encXS 15 15 0x0A :=
  ⟨ready_stepsFrom _, by decide⟩

theorem witness_WaitHoldsAndTicksRunInIt :
    ∃ s u : State, (s.status = .waitKey ∧ s.nextEvent = .tick) ∧
      (u.status = .waitKey ∧ u.nextEvent = .step ⟨0, 0, false⟩ ∧ (⟨0, 0, false⟩ : Pins).haltReq = false) :=
  ⟨{ blankState with status := .waitKey, events := [.tick] },
    { blankState with status := .waitKey, events := [.step ⟨0, 0, false⟩] }, ⟨rfl, rfl⟩, ⟨rfl, rfl, rfl⟩⟩

theorem witness_TickCountsBothTimersDown :
    ∃ s : State, s.nextEvent = .tick ∧ s.dt = 0 ∧ s.st = 1 :=
  ⟨{ blankState with st := 1, events := [.tick] }, rfl, rfl, rfl⟩

theorem witness_HaltRequestEndsTheRunAndWins :
    ∃ s u : State, (s.nextEvent = .halt ∧ s.status = .running) ∧
      (u.nextEvent = .step ⟨0, 0, true⟩ ∧ (⟨0, 0, true⟩ : Pins).haltReq = true ∧ u.status = .waitKey) :=
  ⟨{ blankState with events := [.halt] }, { blankState with status := .waitKey, events := [.step ⟨0, 0, true⟩] },
    ⟨rfl, rfl⟩, ⟨rfl, rfl, rfl⟩⟩

/-- Each event but reset meets the premises in each terminal STATUS. -/
theorem witness_TerminalStatusIsKeptUntilReset :
    isExtension .exit = true ∧ Status.running.terminal = false ∧
    ∀ st ∈ [Status.halted, .unsupported, .invalid], ∀ e ∈ [Event.step ⟨0, 0, true⟩, .key 15, .halt, .tick, .load 0x200 7],
      ∃ s : State, s.status.terminal = true ∧ s.nextEvent = e := by
  refine ⟨rfl, rfl, fun st hst e _ => ⟨{ blankState with status := st, events := [e] }, ?_, rfl⟩⟩
  simp only [List.mem_cons, List.not_mem_nil, or_false] at hst
  rcases hst with rfl | rfl | rfl <;> rfl

theorem witness_InputsMatterOnlyWhereTheyAreSampled_instructions :
    ((∀ x, Instr.cls ≠ .skpVx x) ∧ (∀ x, Instr.cls ≠ .sknpVx x) ∧ ∀ x kk, Instr.cls ≠ .rndVxKk x kk) ∧
    ∃ (s : State) (p q : Pins), p.keys = s.pins.keys ∧ q.rnd = s.pins.rnd :=
  ⟨⟨fun _ h => (by cases h), fun _ h => (by cases h), fun _ _ h => (by cases h)⟩,
    blankState, ⟨0, 9, false⟩, ⟨9, 0, false⟩, rfl, rfl⟩

theorem witness_InputsMatterOnlyWhereTheyAreSampled_key :
    ∃ s u : State, (s.status ≠ .waitKey ∧ s.nextEvent = .key 15) ∧ (u.status = .waitKey ∧ u.nextEvent = .key 0) :=
  ⟨{ blankState with events := [.key 15] }, { blankState with status := .waitKey, events := [.key 0] },
    ⟨by decide, rfl⟩, ⟨rfl, rfl⟩⟩

/-- The lowest and the highest address of the image, the closed port, and a first step. -/
theorem witness_LoadPortFillsMemoryBeforeTheRun :
    (∀ a ∈ [(0x200 : Addr), 0xFFF], ∃ s : State, s.nextEvent = .load a 7 ∧ s.loadOpen = true ∧ 0x200 ≤ a.toNat) ∧
    (∃ s : State, s.nextEvent = .load 0x200 7 ∧ s.loadOpen = false) ∧
    ∃ (s t : State), s.nextEvent = .step ⟨0, 0, false⟩ ∧ step s = .next t := by
  refine ⟨fun a ha => ⟨{ blankState with events := [.load a 7] }, rfl, rfl, ?_⟩,
    ⟨{ blankState with loadOpen := false, events := [.load 0x200 7] }, rfl, rfl⟩,
    { ready 0x1204 with events := [.step ⟨0, 0, false⟩] }, _, rfl, rfl⟩
  revert a
  decide

/-- A terminal state with a step listed goes on; the other premise of the statement is that the event is no reset. -/
theorem witness_TerminalStatusIsKeptUntilReset_next :
    ∃ s t : State, s.status.terminal = true ∧ s.nextEvent ≠ .reset ∧ step s = .next t :=
  ⟨{ blankState with status := .halted, events := [.tick] }, _, rfl, by decide, rfl⟩

/-- A load below the image while the port is open. -/
theorem witness_LoadPortFillsMemoryBeforeTheRun_below :
    ∃ s : State, s.nextEvent = .load 0x1FF 7 ∧ s.loadOpen = true ∧ (0x1FF : Addr).toNat < 0x200 :=
  ⟨{ blankState with events := [.load 0x1FF 7] }, rfl, rfl, by decide⟩

/-- A listed event. -/
theorem witness_StepTakesTheNextEventWhole_listed : ∃ s : State, s.events = [.tick, .halt] :=
  ⟨{ blankState with events := [.tick, .halt] }, rfl⟩

theorem witness_StepTakesTheNextEventWhole_drawn : ∃ s : State, s.events = [] := ⟨State.reset, rfl⟩

theorem witness_StepStopsOnlyOnHostBreach : ∃ s : State, s.events = [] := ⟨State.reset, rfl⟩

theorem witness_DiagnosticRegistersAreUnobservable : ∃ t, step (ready 0xE59E) = .next t := ⟨_, rfl⟩

end Sys2Proof.Tests
end

section
/-! Proofs of the statements about the scope of the model (00_scope.md). -/

namespace Sys2Proof.Machine

/-- Settles O7: a scheduled step runs the instruction at PC, and the word and the state that the statement writes
out are `fetchWord` and `fetch` of the state before the fetch. -/
theorem stepRunsTheDecodedInstruction : Obligations.StepRunsTheDecodedInstruction := by
  intro s s0 i hsteps hdecode
  have hword : decode s0.fetchWord = .ok i := hdecode
  calc step s = s0.runInstruction := step_of_stepsFrom hsteps
    _ = exec i s0.fetch := State.runInstruction_of_ok hword

end Sys2Proof.Machine
end

section
/-! Proofs of the statements about the state and its invariant (10_state.md). -/

namespace Sys2Proof.Machine

/-! ### What one instruction can do -/

/-- What an instruction can do to the state `s` in which it runs, by the parts it writes. Which instructions do it is
said for every part but PC and the registers, which many write. -/
inductive Effect (s : State) : Instr → State → Prop where
  | pc {i : Instr} (target : Addr) : Effect s i (s.setPc target)
  | registers {i : Instr} (v : Vector Byte 16) : Effect s i { s with v := v }
  | call (nnn : Addr) : Effect s (.call nnn) ((s.push s.pc).setPc nnn)
  | ret : Effect s .ret s.popPc
  | display {i : Instr} (d : Display) (v : Vector Byte 16) (hi : i = .cls ∨ ∃ x y n, i = .drwVxVyN x y n) :
      Effect s i { s with disp := d, v := v }
  | index {i : Instr} (a : Addr) (v : Vector Byte 16)
      (hi : (∃ n, i = .ldI n) ∨ ∃ x, i = .addIVx x ∨ i = .ldFVx x ∨ i = .ldHfVx x) :
      Effect s i { s with i := a, v := v }
  | store {i : Instr} (bytes : List Byte) (hi : ∃ x y, i = .bcdVxVy x y ∨ i = .ldBVx x ∨ i = .ldMemVx x) :
      Effect s i (s.storeAtI bytes)
  | bank (x : Reg) (r : RplBank) (hr : ∀ k : Fin 8, 3 ≤ k.val → r[k] = s.rpl[k]) :
      Effect s (.ldRVx x) (s.setRpl r)
  | keyQuery {i : Instr} (k : Key) (c : Bool) (hi : ∃ x, i = .skpVx x ∨ i = .sknpVx x) :
      Effect s i ((s.noteKey k).skipIf c)
  | delay (x : Reg) (b : Byte) : Effect s (.ldDtVx x) (s.setDt b)
  | sound (x : Reg) (b : Byte) : Effect s (.ldStVx x) (s.setSt b)
  | keyWait (x : Reg) : Effect s (.ldVxK x) (s.setStatus .waitKey)
  | extension {i : Instr} (hi : isExtension i = true) : Effect s i s.raiseUnsupported

/-- The bank entries 3 to 7 keep their bytes, as LD R, Vx moves at most three (44_mem_index.md R208). -/
theorem rpl_kept_of_transfer (s : State) (x : Reg) (k : Fin 8) (hk : 3 ≤ k.val) :
    (Vector.ofFn fun k : Fin 8 =>
      if k.val < transferCount x then s.getV (Fin.ofNat 16 k.val) else s.rpl[k])[k] = s.rpl[k] := by
  have hcount : ¬ k.val < transferCount x := by unfold transferCount; omega
  simp [hcount]

/-- Every instruction goes on, and what it does is one of the effects. -/
theorem exec_effect (i : Instr) (s : State) : ∃ t, exec i s = .next t ∧ Effect s i t := by
  cases i
  case cls => exact ⟨_, rfl, .display _ s.v (.inl rfl)⟩
  case drwVxVyN x y n => exact ⟨_, rfl, .display _ _ (.inr ⟨x, y, n, rfl⟩)⟩
  case ret => exact ⟨_, rfl, .ret⟩
  case call nnn => exact ⟨_, rfl, .call nnn⟩
  case jp | jpV0 | seVxKk | sneVxKk | seVxVy | sgtVxVy | sltVxVy | sne5VxVy | sneVxVy =>
    exact ⟨_, rfl, .pc _⟩
  case ldVxKk | addVxKk | ldVxVy | orVxVy | andVxVy | xorVxVy | addVxVy | subVxVy | shrVx | subnVxVy | shlVx
      | mulVxVy | divVxVy | rndVxKk | ldVxDt | ldVxMem | ldVxR =>
    exact ⟨_, rfl, .registers _⟩
  case bcdVxVy x y => exact ⟨_, rfl, .store _ ⟨x, y, .inl rfl⟩⟩
  case ldBVx x => exact ⟨_, rfl, .store _ ⟨x, 0, .inr (.inl rfl)⟩⟩
  case ldMemVx x => exact ⟨_, rfl, .store _ ⟨x, 0, .inr (.inr rfl)⟩⟩
  case ldI nnn => exact ⟨_, rfl, .index _ s.v (.inl ⟨nnn, rfl⟩)⟩
  case addIVx x => exact ⟨_, rfl, .index _ _ (.inr ⟨x, .inl rfl⟩)⟩
  case ldFVx x => exact ⟨_, rfl, .index _ s.v (.inr ⟨x, .inr (.inl rfl)⟩)⟩
  case ldHfVx x => exact ⟨_, rfl, .index _ s.v (.inr ⟨x, .inr (.inr rfl)⟩)⟩
  case ldRVx x => exact ⟨_, rfl, .bank x _ (rpl_kept_of_transfer s x)⟩
  case skpVx x => exact ⟨_, rfl, .keyQuery _ _ ⟨x, .inl rfl⟩⟩
  case sknpVx x => exact ⟨_, rfl, .keyQuery _ _ ⟨x, .inr rfl⟩⟩
  case ldDtVx x => exact ⟨_, rfl, .delay x _⟩
  case ldStVx x => exact ⟨_, rfl, .sound x _⟩
  case ldVxK x => exact ⟨_, rfl, .keyWait x⟩
  case scd | scr | scl | exit | low | high | ldAVx => exact ⟨_, rfl, .extension rfl⟩

/-- The next state an instruction answers comes from one of the effects. -/
theorem effect_of_exec {i : Instr} {s t : State} (h : exec i s = .next t) : Effect s i t := by
  obtain ⟨u, hu, heffect⟩ := exec_effect i s
  rw [h] at hu
  cases hu
  exact heffect

/-- Settles O38, part by part from the effect of the instruction. -/
theorem eachPartIsWrittenByItsInstructionsOnly : Obligations.EachPartIsWrittenByItsInstructionsOnly := by
  intro i s t h
  cases effect_of_exec h
  case store hi => simp [State.storeAtI_eq, hi]
  case bank hr => simpa using hr
  case keyQuery hi => simp +contextual [State.skipIf_eq, hi]
  case extension hi => simp [State.raiseUnsupported, hi]
  case display hi => simp [hi]
  case index hi => simp [hi]
  case pc | registers | call | ret | delay | sound | keyWait => simp

/-! ### The invariant -/

/-- The only reason a word is rejected (30_encoding.md R97). -/
theorem decode_error {w : Word} {e : DecodeError} (h : decode w = .error e) : e = .invalidOpcode w := by
  simp only [decode, decodeClass0, decodeClass5, decodeClass8, decodeClass9, decodeClassE, decodeClassF] at h
  repeat' split at h
  all_goals cases h
  all_goals rfl

/-- The invariant reads memory, STATUS, DIAG and IR only. -/
theorem State.Inv.of_same {s t : State} (h : s.Inv) (hmem : t.mem = s.mem) (hstatus : t.status = s.status)
    (hdiag : t.diag = s.diag) (hir : t.ir = s.ir) : t.Inv := by
  obtain ⟨hwf, hwait, hunsupported, hinvalid⟩ := h
  constructor <;> simpa only [hmem, hstatus, hdiag, hir]

/-- In STATUS Running or Halted the invariant is the canonical form of memory. -/
theorem State.Inv.of_plain_status {t : State} (hwf : Memory.wf t.mem = true)
    (hstatus : t.status = .running ∨ t.status = .halted) : t.Inv := by
  refine ⟨hwf, ?_, ?_, ?_⟩ <;> rcases hstatus with h | h <;> simp [h]

/-- Settles O18: memory lists nothing and STATUS is Running. -/
theorem resetStateHasTheInvariant : Obligations.ResetStateHasTheInvariant :=
  .of_plain_status rfl (.inl rfl)

/-- An instruction whose opcode stands in IR leads from a running state with canonical memory to the
invariant. -/
theorem Effect.inv {i : Instr} {s t : State} (h : Effect s i t) (hwf : Memory.wf s.mem = true)
    (hrun : s.status = .running) (hir : decode s.ir = .ok i) : t.Inv := by
  cases h
  case store => exact .of_plain_status (Memory.writeBytes_wf _ _ _ hwf) (.inl hrun)
  case keyWait x => exact ⟨hwf, fun _ => ⟨x, hir⟩, nofun, nofun⟩
  case extension hi => exact ⟨hwf, nofun, fun _ => ⟨rfl, i, hir, hi⟩, nofun⟩
  case pc | registers | call | ret | display | index | bank | keyQuery | delay | sound =>
    exact .of_plain_status hwf (.inl hrun)

/-- A rejected word that stands in IR is reported as the invariant asks. -/
theorem State.inv_raiseInvalid {s : State} {e : DecodeError} (hwf : Memory.wf s.mem = true)
    (hir : decode s.ir = .error e) : s.raiseInvalid.Inv := by
  cases decode_error hir
  exact ⟨hwf, nofun, nofun, fun _ => ⟨rfl, hir⟩⟩

/-- Fetching and running one instruction ends in the invariant. -/
theorem State.inv_of_runInstruction {s t : State} (hwf : Memory.wf s.mem = true) (hrun : s.status = .running)
    (h : s.runInstruction = .next t) : t.Inv := by
  cases hword : decode s.fetchWord with
  | ok i =>
    rw [State.runInstruction_of_ok hword] at h
    exact (effect_of_exec h).inv hwf hrun hword
  | error e =>
    rw [State.runInstruction_of_error hword] at h
    cases h
    exact State.inv_raiseInvalid hwf hword

/-- A halt request keeps the invariant. -/
theorem State.Inv.haltRequest {s : State} (h : s.Inv) : s.haltRequest.Inv := by
  cases hterminal : s.status.terminal with
  | true => rwa [State.haltRequest_of_terminal hterminal]
  | false =>
    rw [State.haltRequest_of_live hterminal]
    exact .of_plain_status h.memWf (.inr rfl)

/-- A key event keeps the invariant. -/
theorem State.Inv.keyEvent {s : State} (h : s.Inv) (k : Key) : (s.keyEvent k).Inv := by
  by_cases hwait : s.status = .waitKey
  · rw [State.keyEvent_of_wait hwait]
    exact .of_plain_status h.memWf (.inl rfl)
  · rwa [State.keyEvent_of_not_wait hwait]

/-- Sampling the ports keeps the invariant. -/
theorem State.Inv.sample {s : State} (h : s.Inv) (p : Pins) : (s.sample p).Inv := h.of_same rfl rfl rfl rfl

/-- A scheduled step keeps the invariant. -/
theorem State.Inv.stepEvent {s t : State} (h : s.Inv) {p : Pins} (ht : s.stepEvent p = .next t) : t.Inv := by
  rcases s.stepEvent_cases p with ⟨-, heq⟩ | ⟨-, hrun, heq⟩ | ⟨-, -, heq⟩ <;> rw [heq] at ht
  · cases ht
    exact (h.sample p).haltRequest
  · exact State.inv_of_runInstruction (s := s.sample p) h.memWf hrun ht
  · cases ht
    exact h.sample p

/-- A load that is stored keeps the invariant in every STATUS. -/
theorem State.Inv.loadEvent {s t : State} (h : s.Inv) {a : Addr} {b : Byte} (ht : s.loadEvent a b = .next t) :
    t.Inv := by
  rcases s.loadEvent_cases a b with ⟨-, -, heq⟩ | ⟨-, heq⟩ | ⟨-, -, heq⟩ <;> rw [heq] at ht <;> cases ht
  exact ⟨Memory.write_wf _ a b h.memWf, h.waitOpcode, h.unsupportedWord, h.invalidWord⟩

/-- Each event keeps the invariant. -/
theorem State.Inv.handle {s t : State} (h : s.Inv) {e : Event} (ht : s.handle e = .next t) : t.Inv := by
  cases e
  case step p => exact h.stepEvent ht
  case load a b => exact h.loadEvent ht
  all_goals cases ht
  case tick => exact h.of_same rfl rfl rfl rfl
  case key k => exact h.keyEvent k
  case halt => exact h.haltRequest
  case reset => exact .of_plain_status rfl (.inl rfl)

/-- Settles O19: a step takes one event, and taking an event from the list changes nothing the invariant reads. -/
theorem everyStepKeepsTheInvariant : Obligations.EveryStepKeepsTheInvariant := by
  intro s t hinv hstep
  have hdequeue : s.dequeue.Inv := hinv.of_same rfl rfl rfl rfl
  exact hdequeue.handle hstep

/-! ### The reset state -/

/-- The large font has one of the two sizes (00_scope.md R8). -/
theorem nLarge_eq_ten_or_sixteen : Config.nLarge = 10 ∨ Config.nLarge = 16 := by
  unfold Config.nLarge
  cases Config.hasSixteenLargeGlyphs
  · exact .inl rfl
  · exact .inr rfl

/-- The small font at launch (70_reset_and_hazards.md R342). -/
theorem Memory.blank_smallFont {a : Nat} (h : a < 80) : Memory.blank a = Config.fontSmall.getD a 0 := by
  simp only [Memory.blank, if_pos h]

/-- The large font at launch, of 10 or of 16 glyphs (R343). -/
theorem Memory.blank_largeFont {a : Nat} (h : 80 ≤ a) (h' : a < 80 + 10 * Config.nLarge) :
    Memory.blank a = Config.fontLarge (a - 80) := by
  unfold Memory.blank Config.nLarge at *
  cases hsize : Config.hasSixteenLargeGlyphs <;> simp only [hsize, cond_true, cond_false] at h' ⊢
  · rw [if_neg (by omega), if_pos (by omega)]
  · rw [if_neg (by omega)]
    by_cases hten : a < 180
    · rw [if_pos hten]
    · rw [if_neg hten, if_pos (by omega)]

/-- Memory above the fonts at launch (10_state.md R31). -/
theorem Memory.blank_aboveFonts {a : Nat} (h : 80 + 10 * Config.nLarge ≤ a) : Memory.blank a = 0 := by
  unfold Memory.blank Config.nLarge at *
  cases hsize : Config.hasSixteenLargeGlyphs <;> simp only [hsize, cond_true, cond_false] at h ⊢
  · rw [if_neg (by omega), if_neg (by omega), ite_self]
  · rw [if_neg (by omega), if_neg (by omega), if_neg (by omega)]

/-- Settles O16: the fields by definition, memory from what its unlisted addresses read as. -/
theorem resetLeavesTheStatedValues : Obligations.ResetLeavesTheStatedValues := by
  refine ⟨fun r => ?_, fun k => ?_, rfl, rfl, rfl, rfl, rfl, rfl, rfl, rfl, rfl, fun a h => ?_, fun a h h' => ?_,
    fun a h => ?_, nLarge_eq_ten_or_sixteen⟩
  · simp [State.getV, State.reset]
  · simp [State.reset]
  · exact Memory.blank_smallFont h
  · exact Memory.blank_largeFont h h'
  · exact Memory.blank_aboveFonts h

/-! ### KRM and DIAG -/

/-- The state with other contents of the two diagnostic registers. -/
def State.withDiagnostics (s : State) (k : BitVec 16) (d : Word) : State := { s with krm := k, diag := d }

/-- No instruction reads KRM or DIAG but to update them. -/
theorem exec_withDiagnostics {i : Instr} {s t : State} (h : exec i s = .next t) (k : BitVec 16) (d : Word) :
    ∃ k' d', exec i (s.withDiagnostics k d) = .next (t.withDiagnostics k' d') := by
  cases i
  case skpVx x | sknpVx x => cases h; exact ⟨k ||| BitVec.twoPow 16 (s.keyOperand x), d, rfl⟩
  case scd | scr | scl | exit | low | high | ldAVx => cases h; exact ⟨k, s.ir, rfl⟩
  all_goals cases h; exact ⟨k, d, rfl⟩

/-- A halt request reads neither register. -/
theorem State.haltRequest_withDiagnostics (s : State) (k : BitVec 16) (d : Word) :
    (s.withDiagnostics k d).haltRequest = s.haltRequest.withDiagnostics k d := by
  cases hterminal : s.status.terminal with
  | true =>
    rw [State.haltRequest_of_terminal hterminal,
      State.haltRequest_of_terminal (s := s.withDiagnostics k d) hterminal]
  | false =>
    rw [State.haltRequest_of_live hterminal, State.haltRequest_of_live (s := s.withDiagnostics k d) hterminal]
    rfl

/-- A key event reads neither register. -/
theorem State.keyEvent_withDiagnostics (s : State) (k : BitVec 16) (d : Word) (c : Key) :
    (s.withDiagnostics k d).keyEvent c = (s.keyEvent c).withDiagnostics k d := by
  by_cases hwait : s.status = .waitKey
  · rw [State.keyEvent_of_wait hwait, State.keyEvent_of_wait (s := s.withDiagnostics k d) hwait]
    rfl
  · rw [State.keyEvent_of_not_wait hwait, State.keyEvent_of_not_wait (s := s.withDiagnostics k d) hwait]

/-- Fetching reads neither register, and of the rest only the report of an opcode error writes one. -/
theorem State.runInstruction_withDiagnostics {s t : State} (h : s.runInstruction = .next t) (k : BitVec 16)
    (d : Word) : ∃ k' d', (s.withDiagnostics k d).runInstruction = .next (t.withDiagnostics k' d') := by
  cases hword : decode s.fetchWord with
  | ok i =>
    rw [State.runInstruction_of_ok hword] at h
    rw [State.runInstruction_of_ok (s := s.withDiagnostics k d) hword]
    exact exec_withDiagnostics h k d
  | error e =>
    rw [State.runInstruction_of_error hword] at h
    rw [State.runInstruction_of_error (s := s.withDiagnostics k d) hword]
    cases h
    exact ⟨k, s.fetchWord, rfl⟩

/-- A scheduled step with a halt request present (60_exceptions.md R306). -/
theorem State.stepEvent_of_haltReq {s : State} {p : Pins} (hhalt : p.haltReq = true) :
    s.stepEvent p = .next (s.sample p).haltRequest := by
  simp [State.stepEvent, hhalt]

/-- A scheduled step that the executor takes. -/
theorem State.stepEvent_of_running {s : State} {p : Pins} (hhalt : p.haltReq = false) (hrun : s.status = .running) :
    s.stepEvent p = (s.sample p).runInstruction := by
  simp [State.stepEvent, hhalt, hrun]

/-- A scheduled step in the key wait or after the end of the run. -/
theorem State.stepEvent_of_not_running {s : State} {p : Pins} (hhalt : p.haltReq = false)
    (hrun : s.status ≠ .running) : s.stepEvent p = .next (s.sample p) := by
  simp [State.stepEvent, hhalt, hrun]

/-- A load inside the host's contract (70_reset_and_hazards.md R344). -/
theorem State.loadEvent_of_admitted {s : State} {a : Addr} (hopen : s.loadOpen = true) (ha : programBase ≤ a)
    (b : Byte) : s.loadEvent a b = .next (s.setMem (Memory.write s.mem a b)) := by
  simp [State.loadEvent, hopen, BitVec.not_lt.mpr ha]

/-- A scheduled step goes the same way whatever the two registers hold. -/
theorem State.stepEvent_withDiagnostics {s t : State} {p : Pins} (h : s.stepEvent p = .next t) (k : BitVec 16)
    (d : Word) : ∃ k' d', (s.withDiagnostics k d).stepEvent p = .next (t.withDiagnostics k' d') := by
  rcases s.stepEvent_cases p with ⟨hhalt, heq⟩ | ⟨hhalt, hrun, heq⟩ | ⟨hhalt, hrun, heq⟩ <;> rw [heq] at h
  · cases h
    rw [State.stepEvent_of_haltReq hhalt]
    exact ⟨k, d, congrArg _ ((s.sample p).haltRequest_withDiagnostics k d)⟩
  · rw [State.stepEvent_of_running (s := s.withDiagnostics k d) hhalt hrun]
    exact State.runInstruction_withDiagnostics h k d
  · cases h
    rw [State.stepEvent_of_not_running (s := s.withDiagnostics k d) hhalt hrun]
    exact ⟨k, d, rfl⟩

/-- A load is stored or refused whatever the two registers hold. -/
theorem State.loadEvent_withDiagnostics {s t : State} {a : Addr} {b : Byte} (h : s.loadEvent a b = .next t)
    (k : BitVec 16) (d : Word) : (s.withDiagnostics k d).loadEvent a b = .next (t.withDiagnostics k d) := by
  rcases s.loadEvent_cases a b with ⟨hopen, ha, heq⟩ | ⟨-, heq⟩ | ⟨-, -, heq⟩ <;> rw [heq] at h <;> cases h
  exact State.loadEvent_of_admitted (s := s.withDiagnostics k d) hopen ha b

/-- No event reads KRM or DIAG but to update them. -/
theorem State.handle_withDiagnostics {s t : State} {e : Event} (h : s.handle e = .next t) (k : BitVec 16)
    (d : Word) : ∃ k' d', (s.withDiagnostics k d).handle e = .next (t.withDiagnostics k' d') := by
  cases e
  case step p => exact State.stepEvent_withDiagnostics h k d
  case load a b => exact ⟨k, d, State.loadEvent_withDiagnostics h k d⟩
  all_goals cases h
  case tick => exact ⟨k, d, rfl⟩
  case key c => exact ⟨k, d, congrArg _ (s.keyEvent_withDiagnostics k d c)⟩
  case halt => exact ⟨k, d, congrArg _ (s.haltRequest_withDiagnostics k d)⟩
  case reset => exact ⟨0, 0, rfl⟩

/-- Settles O56: neither register has a say in which event is next, and no event reads one but to update it. -/
theorem diagnosticRegistersAreUnobservable : Obligations.DiagnosticRegistersAreUnobservable := by
  intro s t k d hstep
  obtain ⟨k', d', h⟩ := State.handle_withDiagnostics hstep k d
  exact ⟨t.withDiagnostics k' d', h, rfl⟩

/-! ### PC -/

/-- Only CALL copies PC: any other instruction, run with another PC, leaves the same state but for PC. -/
theorem exec_setPc {i : Instr} {s t : State} (hcall : ∀ nnn, i ≠ .call nnn) (h : exec i s = .next t) (p : Addr) :
    ∃ q, exec i (s.setPc p) = .next (t.setPc q) := by
  cases i
  case call nnn => exact absurd rfl (hcall nnn)
  all_goals cases h; exact ⟨_, rfl⟩

/-- A step scheduled in the key wait samples the ports, or the halt request ends the run; PC is held. -/
theorem State.stepEvent_pc_of_wait {s : State} (h : s.status = .waitKey) (p : Pins) :
    ∃ t, s.stepEvent p = .next t ∧ t.pc = s.pc := by
  have hlive : (s.sample p).status.terminal = false := by simp [h, Status.terminal]
  rcases s.stepEvent_cases p with ⟨-, heq⟩ | ⟨-, hrun, -⟩ | ⟨-, -, heq⟩
  · exact ⟨_, heq, by rw [State.haltRequest_of_live hlive]; rfl⟩
  · rw [h] at hrun
    cases hrun
  · exact ⟨_, heq, rfl⟩

/-- Settles O15, instruction by instruction: a jump sets PC, a skip adds 2 under the condition its meaning tests, the
others leave PC; only CALL, whose two states differ in the stack alone, copies it. -/
theorem pcAfterEachInstruction : Obligations.PcAfterEachInstruction := by
  refine ⟨fun i s => ?_, fun i s t u p hcall ht hu => ?_, fun s t u nnn p ht hu => ?_, fun s nnn => ?_,
    fun s p hwait hnext => ?_⟩
  · cases i
    all_goals refine ⟨_, rfl, ?_⟩
    case seVxKk | sneVxKk | seVxVy | sgtVxVy | sltVxVy | sne5VxVy | sneVxVy =>
      simp [State.skipIf_eq]
    case skpVx => simp [State.skipIf_eq, State.keyDown, State.keyOperand]
    case sknpVx x =>
      cases hkey : s.pins.keys.getLsbD ((s.getV x).toNat % 16) <;>
        simp [State.skipIf_eq, State.keyDown, State.keyOperand, hkey]
    all_goals rfl
  · obtain ⟨q, hq⟩ := exec_setPc hcall ht p
    cases hu.symm.trans hq
    rfl
  · cases ht
    cases hu
    rfl
  · exact ⟨_, rfl, by simp⟩
  · rw [step_of_nextEvent hnext]
    exact State.stepEvent_pc_of_wait (s := s.dequeue) hwait p

/-! ### The flag values -/

/-- The number of a flag (42_alu.md R172). -/
theorem toNat_flagByte (c : Bool) : (flagByte c).toNat = if c then 1 else 0 := by
  cases c <;> rfl

/-- The carry of ADD Vx, Vy as a number (42_alu.md R167). -/
theorem toNat_carryFlag (a b : Byte) : (carryFlag a b).toNat = if a.toNat + b.toNat > 255 then 1 else 0 := by
  simp [carryFlag, toNat_flagByte]

/-- The no-borrow flag as a number (R168, R170). -/
theorem toNat_noBorrowFlag (a b : Byte) : (noBorrowFlag a b).toNat = if a.toNat ≥ b.toNat then 1 else 0 := by
  simp [noBorrowFlag, toNat_flagByte]

/-- The overflow of ADD I, Vx as a number (44_mem_index.md R201). -/
theorem toNat_indexOverflowFlag (i : Addr) (b : Byte) :
    (indexOverflowFlag i b).toNat = if i.toNat + b.toNat > 0xFFF then 1 else 0 := by
  simp [indexOverflowFlag, toNat_flagByte]

/-- A flag is one of the bytes 1 and 0. -/
theorem flagByte_eq_one_or_zero (c : Bool) : flagByte c = 1 ∨ flagByte c = 0 := by
  cases c <;> decide

/-- The condition of a flag can be read back from it. -/
theorem flagByte_eq_one_iff (c : Bool) : flagByte c = 1 ↔ c = true := by
  cases c <;> decide

/-- The bit SHR shifts out is the remainder by 2. -/
theorem toNat_shrFlag (a : Byte) : (shrFlag a).toNat = a.toNat % 2 := by
  rw [shrFlag, toNat_flagByte, BitVec.getLsbD, Nat.testBit_zero]
  rcases Nat.mod_two_eq_zero_or_one a.toNat with h | h <;> simp [h]

/-- The bit SHL shifts out is the quotient by 128. -/
theorem toNat_shlFlag (a : Byte) : (shlFlag a).toNat = a.toNat / 128 := by
  have := a.isLt
  rw [shlFlag, toNat_flagByte, BitVec.getLsbD, Nat.testBit_eq_decide_div_mod_eq]
  simp only [decide_eq_true_eq]
  split <;> omega

/-- The high byte of the product of two bytes is at most 254. -/
theorem mul_div_256_le (a b : Byte) : a.toNat * b.toNat / 256 ≤ 254 := by
  have ha : a.toNat ≤ 255 := Nat.le_of_lt_succ a.isLt
  have hb : b.toNat ≤ 255 := Nat.le_of_lt_succ b.isLt
  have hprod : a.toNat * b.toNat ≤ 255 * 255 := Nat.mul_le_mul ha hb
  omega

/-- The high byte MUL leaves in VF fits a byte. -/
theorem toNat_mulHigh (a b : Byte) : (mulHigh a b).toNat = a.toNat * b.toNat / 256 := by
  have := mul_div_256_le a b
  rw [mulHigh, BitVec.toNat_ofNat]
  omega

/-- The remainder of DIV by a divisor other than 0. -/
theorem toNat_quotRem_remainder {a b : Byte} (hb : b.toNat ≠ 0) : (quotRem a b).2.toNat = a.toNat % b.toNat := by
  have hne : b ≠ 0 := fun h => hb (congrArg BitVec.toNat h)
  rw [quotRem, if_neg hne, BitVec.toNat_umod]

/-- DIV by 0 takes its remainder from DIV0. -/
theorem quotRem_remainder_of_zero {a b : Byte} (hb : b.toNat = 0) : (quotRem a b).2 = (Config.div0 a).2 := by
  have hzero : b = 0 := BitVec.eq_of_toNat_eq hb
  rw [quotRem, if_pos hzero]

/-- When no two operations name the same pixel, a collision is reported exactly if some pixel was erased
(45_io.md R233). -/
theorem Display.hit_run_iff_erased (d : Display) {ops : List PixelOp} (hp : ops.Pairwise PixelOp.apart) :
    (Display.run d false ops).2 = true ↔
      ∃ row col, Display.pixel d row col = true ∧ Display.pixel (Display.run d false ops).1 row col = false := by
  rw [Display.hit_run d false ops hp]
  constructor
  · rintro (h | ⟨op, hop, hset, hbit⟩)
    · cases h
    · exact ⟨op.y, op.x, hset, by rw [Display.pixel_run_of_mem d false ops hp op hop, hset, hbit]; rfl⟩
  · rintro ⟨row, col, hset, herased⟩
    have htouched : ∃ op ∈ ops, row = op.y ∧ col = op.x := by
      by_contra hno
      push Not at hno
      rw [Display.pixel_run_untouched d false ops row col fun op hop h => hno op hop h.1 h.2, hset] at herased
      cases herased
    obtain ⟨op, hop, rfl, rfl⟩ := htouched
    rw [Display.pixel_run_of_mem d false ops hp op hop, hset] at herased
    exact .inr ⟨op, hop, hset, by simpa using herased⟩

/-- A sprite of at most 32 rows reports a collision exactly if it erased some pixel. -/
theorem Display.hit_drawSprite_iff_erased (d : Display) (originX originY : Byte) {bytes : List Byte}
    (hlen : bytes.length ≤ 32) :
    (Display.drawSprite d originX originY bytes).2 = true ↔
      ∃ row col, Display.pixel d row col = true ∧
        Display.pixel (Display.drawSprite d originX originY bytes).1 row col = false :=
  Display.hit_run_iff_erased d (spriteOps_apart originX originY 0 bytes (by omega))

/-! ### The flag register -/

/-- The flag is what VF holds after a result and a flag are written. -/
theorem State.getV_setResultFlag_flag (s : State) (x : Reg) (result flag : Byte) :
    (s.setResultFlag x result flag).getV 15 = flag :=
  (s.setResultFlag_spec x result flag).1

/-- A flag written last is what VF holds. -/
theorem State.getV_setV_flagReg (s : State) (flag : Byte) : (s.setV flagReg flag).getV 15 = flag := by
  simp [flagReg]

/-- A counted load of at most 15 registers leaves VF alone. -/
theorem State.getV_setRegsBelow_flag (s : State) {n : Nat} (hn : n ≤ 15) (f : Nat → Byte) :
    (s.setRegsBelow n f).getV 15 = s.getV 15 := by
  rw [State.getV_setRegsBelow]
  exact if_neg (Nat.not_lt.mpr hn)

/-- The remainder a divisor other than 0 leaves in VF is at most 254. -/
theorem mod_le_254 (a b : Byte) (hb : b.toNat ≠ 0) : a.toNat % b.toNat ≤ 254 := by
  have := Nat.mod_lt a.toNat (Nat.pos_of_ne_zero hb)
  have := b.isLt
  omega

/-- The sprite of DRW has no more rows than the display. -/
theorem State.length_loadAtI_le (s : State) (n : Count) : (s.loadAtI n.val).length ≤ 32 := by
  rw [State.loadAtI, Memory.length_readBytes]
  omega

/-- Settles O29: the values of R33 from the flag that is written last; every other instruction writes no register,
its destination, or a counted range below VF. -/
theorem flagRuleForEveryInstruction : Obligations.FlagRuleForEveryInstruction := by
  refine ⟨fun s x y n => ?_, fun i s t h => ?_⟩
  · refine ⟨⟨_, rfl, ?add⟩, ⟨_, rfl, ?sub⟩, ⟨_, rfl, ?subn⟩, ⟨_, rfl, ?shr⟩, ⟨_, rfl, ?shl⟩, ⟨_, rfl, ?mul⟩,
      ⟨_, rfl, ?div⟩, ⟨_, rfl, ?addI⟩, ⟨_, rfl, ?drw⟩⟩
    case add => rw [State.getV_setResultFlag_flag, toNat_carryFlag]
    case sub | subn => rw [State.getV_setResultFlag_flag, toNat_noBorrowFlag]
    case shr => rw [State.getV_setResultFlag_flag, toNat_shrFlag]
    case shl => rw [State.getV_setResultFlag_flag, toNat_shlFlag]
    case mul =>
      rw [State.getV_setResultFlag_flag, toNat_mulHigh]
      exact ⟨rfl, mul_div_256_le _ _⟩
    case div =>
      rw [State.getV_setResultFlag_flag]
      refine ⟨fun hb => ?_, quotRem_remainder_of_zero⟩
      rw [toNat_quotRem_remainder hb]
      exact ⟨rfl, mod_le_254 _ _ hb⟩
    case addI => rw [State.getV_setV_flagReg, toNat_indexOverflowFlag]
    case drw =>
      rw [State.getV_setV_flagReg]
      exact ⟨flagByte_eq_one_or_zero _, (flagByte_eq_one_iff _).trans
        (Display.hit_drawSprite_iff_erased s.disp _ _ (s.length_loadAtI_le n))⟩
  · cases i
    case addVxVy | subVxVy | subnVxVy | shrVx | shlVx | mulVxVy | divVxVy | addIVx | drwVxVyN => trivial
    case ldVxKk | addVxKk | ldVxVy | orVxVy | andVxVy | xorVxVy | rndVxKk | ldVxDt =>
      cases h
      intro hx
      rw [State.getV_setV, if_neg (Ne.symm hx)]
    case ldVxMem x =>
      cases h
      intro hx
      have hlt : x.val + 1 ≤ 15 := Nat.lt_of_le_of_ne (Nat.le_of_lt_succ x.isLt) (Fin.val_ne_of_ne hx)
      exact State.getV_setRegsBelow_flag s hlt _
    case ldVxR x =>
      cases h
      have hcount : transferCount x ≤ 15 := by unfold transferCount; omega
      exact State.getV_setRegsBelow_flag s hcount _
    all_goals cases h; rfl

end Sys2Proof.Machine
end

section
/-! Proofs of the statements about memory and the fetch (20_memory.md). -/

namespace Sys2Proof.Machine

/-! ### The fetch -/

/-- The address after another one, mod 4096. -/
theorem toNat_addr_add_one (a : Addr) : (a + 1).toNat = (a.toNat + 1) % 4096 :=
  BitVec.toNat_add a 1

/-- Settles O8: the low byte stands at the address after PC, and the two bytes joined are the opcode. -/
theorem fetchedWordIsBigEndian : Obligations.FetchedWordIsBigEndian := fun s =>
  ⟨s.pc + 1, toNat_addr_add_one s.pc, toNat_wordOfBytes _ _, State.fetch_ir s, BitVec.toNat_add s.pc 2⟩

/-! ### A store over the next instruction -/

/-- The counted register range lists `V[k]` at place `k`. -/
theorem State.getElem_regsUpTo (s : State) (x k : Reg) (h : k.val < (s.regsUpTo x).length) :
    (s.regsUpTo x)[k.val] = s.getV k := by
  simp [State.regsUpTo, State.getV]

/-- The counted register range has `x + 1` bytes. -/
@[simp] theorem State.length_regsUpTo (s : State) (x : Reg) : (s.regsUpTo x).length = x.val + 1 := by
  simp only [State.regsUpTo, List.length_take, Vector.length_toList]
  omega

/-- After the registers up to `V[x]` are stored at `I`, byte `I + k` reads as `V[k]` (44_mem_index.md R205). -/
theorem State.read_storeAtI_regsUpTo (s : State) {x k : Reg} (hk : k.val ≤ x.val) :
    Memory.read (s.storeAtI (s.regsUpTo x)).mem (s.i + BitVec.ofNat 12 k.val) = s.getV k := by
  have hin : k.val < (s.regsUpTo x).length := by rw [State.length_regsUpTo]; omega
  have hfits : (s.regsUpTo x).length ≤ 4096 := by rw [State.length_regsUpTo]; omega
  calc Memory.read (s.storeAtI (s.regsUpTo x)).mem (s.i + BitVec.ofNat 12 k.val)
      = (s.regsUpTo x)[k.val] := Memory.read_writeBytes_inside s.mem s.i _ hfits k.val hin
    _ = s.getV k := s.getElem_regsUpTo x k hin

/-- Settles O39: the fetch reads the bytes 0 and 1 of the range stored at `I`, which is where PC points. -/
theorem storeIsSeenByTheNextFetch : Obligations.StoreIsSeenByTheNextFetch := by
  intro s x hx hi
  have hhigh : Memory.read (s.storeAtI (s.regsUpTo x)).mem s.pc = s.getV 0 := by
    simpa [hi] using s.read_storeAtI_regsUpTo (k := 0) (Nat.zero_le x.val)
  have hlow : Memory.read (s.storeAtI (s.regsUpTo x)).mem (s.pc + 1) = s.getV 1 := by
    rw [← hi]
    exact s.read_storeAtI_regsUpTo (k := 1) hx
  exact ⟨_, rfl, congrArg₂ wordOfBytes hhigh hlow⟩

/-! ### Read after write -/

/-- Settles O40: the read-after-write law, a reset memory that lists nothing, and the writes that keep the canonical
form. -/
theorem readGivesTheLastByteWritten : Obligations.ReadGivesTheLastByteWritten :=
  ⟨Memory.read_write, Memory.read_nil, Memory.write_wf⟩

/-! ### The canonical form determines the list -/

/-- With the addresses strictly rising, the entry of an address is the one listed for it. -/
theorem Memory.entry_eq_some_iff {m : Memory} (h : m.Pairwise (fun c d => c.1 < d.1)) (a : Nat) (b : Byte) :
    Memory.entry? m a = some b ↔ (a, b) ∈ m := by
  induction m with
  | nil => simp [Memory.entry?]
  | cons e m ih =>
    obtain ⟨k, d⟩ := e
    obtain ⟨hfirst, hrest⟩ := List.pairwise_cons.mp h
    simp only [Memory.entry?, List.mem_cons, Prod.mk.injEq]
    split
    · next hk =>
      subst hk
      have hnot : (a, b) ∉ m := fun hmem => Nat.lt_irrefl a (hfirst _ hmem)
      simp [hnot, eq_comm]
    · next hk => simp [hk, ih hrest]

/-- A canonical memory lists exactly the addresses that read as another byte than at launch, with that byte. -/
theorem Memory.mem_iff_read {m : Memory} (h : Memory.wf m = true) (e : Host.Cell) :
    e ∈ m ↔ ∃ a : Addr, e = (a.toNat, Memory.read m a) ∧ Memory.read m a ≠ Memory.blank a.toNat := by
  obtain ⟨hsorted, hcells⟩ := (Memory.wf_iff m).mp h
  constructor
  · intro he
    obtain ⟨hlt, hne⟩ := hcells e he
    have haddr : (BitVec.ofNat 12 e.1).toNat = e.1 := Nat.mod_eq_of_lt hlt
    have hentry : Memory.entry? m e.1 = some e.2 := (Memory.entry_eq_some_iff hsorted e.1 e.2).mpr he
    have hread : Memory.read m (BitVec.ofNat 12 e.1) = e.2 := by simp [Memory.read, haddr, hentry]
    exact ⟨BitVec.ofNat 12 e.1, by rw [haddr, hread], by rwa [haddr, hread]⟩
  · rintro ⟨a, rfl, hne⟩
    rw [← Memory.entry_eq_some_iff hsorted]
    cases hentry : Memory.entry? m a.toNat with
    | none => exact absurd (by simp [Memory.read, hentry]) hne
    | some b => simp [Memory.read, hentry]

/-- Two lists with strictly rising addresses and the same entries are equal. -/
theorem Memory.eq_of_mem_iff {m m' : Memory} (h : m.Pairwise (fun c d => c.1 < d.1))
    (h' : m'.Pairwise (fun c d => c.1 < d.1)) (hmem : ∀ e, e ∈ m ↔ e ∈ m') : m = m' :=
  haveI : Std.Irrefl fun c d : Host.Cell => c.1 < d.1 := ⟨fun _ => Nat.lt_irrefl _⟩
  haveI : Std.Antisymm fun c d : Host.Cell => c.1 < d.1 := ⟨fun _ _ hcd hdc => absurd hcd (Nat.lt_asymm hdc)⟩
  h.eq_of_mem_iff h' hmem

/-- Settles O41: what a canonical memory lists is said by its reads, and its order by the addresses. -/
theorem canonicalMemoriesThatReadAlikeAreEqual : Obligations.CanonicalMemoriesThatReadAlikeAreEqual := by
  intro m m' h h' hread
  refine Memory.eq_of_mem_iff ((Memory.wf_iff m).mp h).1 ((Memory.wf_iff m').mp h').1 fun e => ?_
  simp only [Memory.mem_iff_read h, Memory.mem_iff_read h', hread]

end Sys2Proof.Machine
end

section
/-! Proofs of the statements about the encoding (30_encoding.md). -/

namespace Sys2Proof.Machine

/-! ### The digits that select a line, from the word of each format -/

theorem top_encWN {top : Nat} (ht : top < 4096) (n : Count) : (encWN top n).toNat / 16 = top := by
  rw [toNat_encWN ht]
  omega

theorem class_encA {cls : Nat} (hc : cls < 16) (nnn : Addr) : (encA cls nnn).toNat / 4096 = cls := by
  have := nnn.isLt
  rw [toNat_encA hc]
  omega

theorem class_encXK {cls : Nat} (hc : cls < 16) (x : Reg) (kk : Byte) : (encXK cls x kk).toNat / 4096 = cls := by
  have := kk.isLt
  rw [toNat_encXK hc]
  omega

theorem class_encXYN {cls : Nat} (hc : cls < 16) (x y : Reg) (n : Count) :
    (encXYN cls x y n).toNat / 4096 = cls := by
  rw [toNat_encXYN hc]
  omega

theorem low_encXYN {cls : Nat} (hc : cls < 16) (x y : Reg) (n : Count) :
    (encXYN cls x y n).toNat % 16 = n.val := by
  rw [toNat_encXYN hc]
  omega

theorem class_encXS {cls sub : Nat} (hc : cls < 16) (hs : sub < 256) (x : Reg) :
    (encXS cls x sub).toNat / 4096 = cls := by
  rw [toNat_encXS hc hs]
  omega

theorem low_encXS {cls sub : Nat} (hc : cls < 16) (hs : sub < 256) (x : Reg) :
    (encXS cls x sub).toNat % 256 = sub := by
  rw [toNat_encXS hc hs]
  omega

/-! ### The words of an instruction -/

/-- The words of an instruction, by the field Y that SHR and SHL do not use (30_encoding.md R96); every other
instruction has one word. -/
def wordWithY (y : Reg) : Instr → Word
  | .shrVx x => encXYN 0x8 x y 6
  | .shlVx x => encXYN 0x8 x y 14
  | i => encode i

/-- The encoder leaves 0 in an unused field Y (R100). -/
theorem wordWithY_zero (i : Instr) : wordWithY 0 i = encode i := by
  cases i <;> rfl

/-- Every word of an instruction decodes to it, format by format: the word has the digits of its line, and the
fields hold the operands. -/
theorem decode_wordWithY (y : Reg) (i : Instr) : decode (wordWithY y i) = .ok i := by
  cases i
  case cls | ret | scr | scl | exit | low | high =>
    simp only [wordWithY, encode]
    decide
  case scd n =>
    have htop : (encWN 0xC n).toNat / 16 = 0xC := top_encWN (by decide) n
    have hclass : (encWN 0xC n).toNat / 4096 = 0 := by omega
    simp [wordWithY, encode, decode, fieldClass, hclass, decodeClass0, htop, fieldN_encWN]
  case jp | call | jpV0 | ldI =>
    simp [wordWithY, encode, decode, fieldClass, class_encA, fieldNNN_encA]
  case seVxKk | sneVxKk | ldVxKk | addVxKk | rndVxKk =>
    simp [wordWithY, encode, decode, fieldClass, class_encXK, fieldX_encXK, fieldNN_encXK]
  case drwVxVyN =>
    simp [wordWithY, encode, decode, fieldClass, class_encXYN, fieldX_encXYN, fieldY_encXYN, fieldN_encXYN]
  case seVxVy | sgtVxVy | sltVxVy | sne5VxVy =>
    simp [wordWithY, encode, decode, fieldClass, class_encXYN, decodeClass5, low_encXYN, fieldX_encXYN,
      fieldY_encXYN]
  case ldVxVy | orVxVy | andVxVy | xorVxVy | addVxVy | subVxVy | subnVxVy | shrVx | shlVx =>
    simp [wordWithY, encode, decode, fieldClass, class_encXYN, decodeClass8, low_encXYN, fieldX_encXYN,
      fieldY_encXYN]
  case sneVxVy | mulVxVy | divVxVy | bcdVxVy =>
    simp [wordWithY, encode, decode, fieldClass, class_encXYN, decodeClass9, low_encXYN, fieldX_encXYN,
      fieldY_encXYN]
  case skpVx | sknpVx =>
    simp [wordWithY, encode, decode, fieldClass, class_encXS, decodeClassE, low_encXS, fieldX_encXS]
  case addIVx | ldFVx | ldHfVx | ldBVx | ldMemVx | ldVxMem | ldRVx | ldVxR | ldVxDt | ldVxK | ldDtVx | ldStVx
      | ldAVx =>
    simp [wordWithY, encode, decode, fieldClass, class_encXS, decodeClassF, low_encXS, fieldX_encXS]

/-- Settles O2: the encoder's word is the one with 0 in the unused field. -/
theorem decodeOfEncodeIsTheInstruction : Obligations.DecodeOfEncodeIsTheInstruction := fun i => by
  rw [← wordWithY_zero]
  exact decode_wordWithY 0 i

/-! ### A word from its fields -/

theorem eq_encWN {w : Word} {top : Nat} (ht : w.toNat / 16 = top) : w = encWN top (fieldN w) := by
  have := w.isLt
  apply BitVec.eq_of_toNat_eq
  rw [toNat_encWN (by omega), fieldN, Fin.val_ofNat]
  omega

theorem eq_encA {w : Word} {cls : Nat} (hc : w.toNat / 4096 = cls) : w = encA cls (fieldNNN w) := by
  have := w.isLt
  apply BitVec.eq_of_toNat_eq
  rw [toNat_encA (by omega), fieldNNN, BitVec.toNat_ofNat]
  omega

theorem eq_encXK {w : Word} {cls : Nat} (hc : w.toNat / 4096 = cls) : w = encXK cls (fieldX w) (fieldNN w) := by
  have := w.isLt
  apply BitVec.eq_of_toNat_eq
  rw [toNat_encXK (by omega), fieldX, fieldNN, BitVec.toNat_ofNat, Fin.val_ofNat]
  omega

theorem eq_encXYN {w : Word} {cls : Nat} {n : Count} (hc : w.toNat / 4096 = cls) (hn : w.toNat % 16 = n.val) :
    w = encXYN cls (fieldX w) (fieldY w) n := by
  have := w.isLt
  apply BitVec.eq_of_toNat_eq
  rw [toNat_encXYN (by omega), fieldX, fieldY, Fin.val_ofNat, Fin.val_ofNat]
  omega

theorem eq_encXS {w : Word} {cls sub : Nat} (hc : w.toNat / 4096 = cls) (hs : w.toNat % 256 = sub) :
    w = encXS cls (fieldX w) sub := by
  have := w.isLt
  apply BitVec.eq_of_toNat_eq
  rw [toNat_encXS (by omega) (by omega), fieldX, Fin.val_ofNat]
  omega

/-! ### What an answer of the decoder says of the word -/

/-- The words the spec lists as invalid (30_encoding.md R97). -/
def Rejected (w : Word) : Prop :=
  let cls := w.toNat / 4096
  let n := w.toNat % 16
  let nn := w.toNat % 256
  (cls = 0 ∧ w.toNat ≠ 0x00E0 ∧ w.toNat ≠ 0x00EE ∧ ¬ (0x00C0 ≤ w.toNat ∧ w.toNat ≤ 0x00CF) ∧
    ¬ (0x00FB ≤ w.toNat ∧ w.toNat ≤ 0x00FF)) ∨
  (cls = 5 ∧ 4 ≤ n) ∨
  (cls = 8 ∧ ((8 ≤ n ∧ n ≤ 13) ∨ n = 15)) ∨
  (cls = 9 ∧ 4 ≤ n) ∨
  (cls = 14 ∧ nn ≠ 0x9E ∧ nn ≠ 0xA1) ∨
  (cls = 15 ∧ nn ∉ [0x07, 0x0A, 0x15, 0x18, 0x1E, 0x29, 0x30, 0x33, 0x55, 0x65, 0x75, 0x85, 0x94])

/-- An answer fits a word: the word is one of the instruction's, or it is invalid and the error names it. -/
def Explains (w : Word) : Except DecodeError Instr → Prop
  | .ok i => ∃ y, w = wordWithY y i
  | .error e => e = .invalidOpcode w ∧ Rejected w

theorem explains_decodeClass0 {w : Word} (hc : w.toNat / 4096 = 0) : Explains w (decodeClass0 w) := by
  unfold decodeClass0
  split
  · next htop => exact ⟨0, eq_encWN htop⟩
  · next htop =>
    split
    case h_8 =>
      simp only [imp_false] at *
      exact ⟨rfl, .inl ⟨hc, by omega⟩⟩
    all_goals exact ⟨0, BitVec.eq_of_toNat_eq ‹_›⟩

theorem explains_decodeClass5 {w : Word} (hc : w.toNat / 4096 = 5) : Explains w (decodeClass5 w) := by
  unfold decodeClass5
  split
  case h_5 =>
    simp only [imp_false] at *
    exact ⟨rfl, .inr (.inl ⟨hc, by omega⟩)⟩
  all_goals exact ⟨0, eq_encXYN hc ‹_›⟩

theorem explains_decodeClass8 {w : Word} (hc : w.toNat / 4096 = 8) : Explains w (decodeClass8 w) := by
  unfold decodeClass8
  split
  case h_10 =>
    simp only [imp_false] at *
    exact ⟨rfl, .inr (.inr (.inl ⟨hc, by omega⟩))⟩
  all_goals exact ⟨fieldY w, eq_encXYN hc ‹_›⟩

theorem explains_decodeClass9 {w : Word} (hc : w.toNat / 4096 = 9) : Explains w (decodeClass9 w) := by
  unfold decodeClass9
  split
  case h_5 =>
    simp only [imp_false] at *
    exact ⟨rfl, .inr (.inr (.inr (.inl ⟨hc, by omega⟩)))⟩
  all_goals exact ⟨0, eq_encXYN hc ‹_›⟩

theorem explains_decodeClassE {w : Word} (hc : w.toNat / 4096 = 14) : Explains w (decodeClassE w) := by
  unfold decodeClassE
  split
  case h_3 h h' => exact ⟨rfl, .inr (.inr (.inr (.inr (.inl ⟨hc, h, h'⟩))))⟩
  all_goals exact ⟨0, eq_encXS hc ‹_›⟩

theorem explains_decodeClassF {w : Word} (hc : w.toNat / 4096 = 15) : Explains w (decodeClassF w) := by
  unfold decodeClassF
  split
  case h_14 =>
    simp only [imp_false] at *
    exact ⟨rfl, .inr (.inr (.inr (.inr (.inr ⟨hc, by simp [*]⟩))))⟩
  all_goals exact ⟨0, eq_encXS hc ‹_›⟩

/-- What the decoder can do, by class (R94): every answer fits its word. -/
theorem explains_decode (w : Word) : Explains w (decode w) := by
  unfold decode
  split
  case h_1 hc => exact explains_decodeClass0 hc
  case h_6 hc => exact explains_decodeClass5 hc
  case h_9 hc => exact explains_decodeClass8 hc
  case h_10 hc => exact explains_decodeClass9 hc
  case h_15 hc => exact explains_decodeClassE hc
  case h_16 hc => exact explains_decodeClassF hc
  case h_2 hc | h_3 hc | h_11 hc | h_12 hc => exact ⟨0, eq_encA hc⟩
  case h_4 hc | h_5 hc | h_7 hc | h_8 hc | h_13 hc => exact ⟨0, eq_encXK hc⟩
  case h_14 hc => exact ⟨0, eq_encXYN hc rfl⟩
  case h_17 =>
    have := class_lt w
    simp only [fieldClass, imp_false] at *
    omega

/-- A word that decodes is one of the instruction's. -/
theorem exists_word_of_decode {w : Word} {i : Instr} (h : decode w = .ok i) : ∃ y, w = wordWithY y i := by
  have hfits := explains_decode w
  rwa [h] at hfits

/-- A word that does not decode is invalid. -/
theorem rejected_of_decode {w : Word} {e : DecodeError} (h : decode w = .error e) : Rejected w := by
  have hfits := explains_decode w
  rw [h] at hfits
  exact hfits.2

/-! ### Masks -/

/-- A mask put together from a high and a low part selects from the two parts of a number. -/
theorem and_two_pow_mul_add (n a k : Nat) {b : Nat} (hb : b < 2 ^ k) :
    n &&& (2 ^ k * a + b) = 2 ^ k * (n / 2 ^ k &&& a) + (n % 2 ^ k &&& b) := by
  have hlow : n % 2 ^ k &&& b < 2 ^ k := Nat.and_lt_two_pow _ hb
  apply Nat.eq_of_testBit_eq
  intro j
  rw [Nat.testBit_and, Nat.testBit_two_pow_mul_add a hb, Nat.testBit_two_pow_mul_add _ hlow]
  split
  · next hj => simp [Nat.testBit_mod_two_pow, hj]
  · next hj => rw [Nat.testBit_and, Nat.testBit_div_two_pow, Nat.sub_add_cancel (Nat.le_of_not_lt hj)]

/-- A mask that leaves out the bits from `k` to below `m` takes just those digits out of a word. -/
theorem toNat_and_outer (w : Word) {k m : Nat} (hk : k ≤ m) (hm : m ≤ 16) :
    (w &&& BitVec.ofNat 16 (2 ^ m * (2 ^ (16 - m) - 1) + (2 ^ k - 1))).toNat =
      w.toNat / 2 ^ m * 2 ^ m + w.toNat % 2 ^ k := by
  have hpow : 2 ^ m * 2 ^ (16 - m) = 2 ^ 16 := by rw [← Nat.pow_add, Nat.add_sub_cancel' hm]
  have hlow : 2 ^ k - 1 < 2 ^ m :=
    Nat.lt_of_lt_of_le (Nat.sub_lt (Nat.two_pow_pos k) Nat.one_pos) (Nat.pow_le_pow_right (by decide) hk)
  have hmask : 2 ^ m * (2 ^ (16 - m) - 1) + (2 ^ k - 1) < 2 ^ 16 := by
    have hle : 2 ^ m ≤ 2 ^ 16 := Nat.pow_le_pow_right (by decide) hm
    rw [Nat.mul_sub, hpow]
    omega
  have hhigh : w.toNat / 2 ^ m < 2 ^ (16 - m) := Nat.div_lt_of_lt_mul (by rw [hpow]; exact w.isLt)
  rw [BitVec.toNat_and, BitVec.toNat_ofNat, Nat.mod_eq_of_lt hmask, and_two_pow_mul_add _ _ _ hlow,
    Nat.and_two_pow_sub_one_eq_mod, Nat.and_two_pow_sub_one_eq_mod, Nat.mod_mod_of_dvd _ (Nat.pow_dvd_pow 2 hk),
    Nat.mod_eq_of_lt hhigh, Nat.mul_comm]

theorem toNat_and_F000 (w : Word) : (w &&& 0xF000).toNat = w.toNat / 4096 * 4096 := by
  simpa [Nat.mod_one] using toNat_and_outer w (k := 0) (m := 12) (by decide) (by decide)

theorem toNat_and_F00F (w : Word) : (w &&& 0xF00F).toNat = w.toNat / 4096 * 4096 + w.toNat % 16 :=
  toNat_and_outer w (k := 4) (m := 12) (by decide) (by decide)

theorem toNat_and_F0FF (w : Word) : (w &&& 0xF0FF).toNat = w.toNat / 4096 * 4096 + w.toNat % 256 :=
  toNat_and_outer w (k := 8) (m := 12) (by decide) (by decide)

theorem toNat_and_FF0F (w : Word) : (w &&& 0xFF0F).toNat = w.toNat / 256 * 256 + w.toNat % 16 :=
  toNat_and_outer w (k := 4) (m := 8) (by decide) (by decide)

theorem toNat_and_FFF0 (w : Word) : (w &&& 0xFFF0).toNat = w.toNat / 16 * 16 := by
  simpa [Nat.mod_one] using toNat_and_outer w (k := 0) (m := 4) (by decide) (by decide)

theorem and_FFFF (w : Word) : w &&& 0xFFFF = w := BitVec.and_allOnes

/-- Masking the field Y out of a word. -/
theorem encXYN_and_FF0F {cls : Nat} (hc : cls < 16) (x y : Reg) (n : Count) :
    encXYN cls x y n &&& 0xFF0F = encXYN cls x 0 n := by
  apply BitVec.eq_of_toNat_eq
  rw [toNat_and_FF0F, toNat_encXYN hc, toNat_encXYN hc, Fin.val_zero]
  omega

/-- Settles O3: a word that decodes is one of the instruction's, and those of a shift differ in Y alone. -/
theorem encodeOfDecodeIsTheWord : Obligations.EncodeOfDecodeIsTheWord := by
  intro w i h
  obtain ⟨y, rfl⟩ := exists_word_of_decode h
  cases i
  case shrVx x => exact .inr ⟨⟨x, .inl rfl⟩, (encXYN_and_FF0F (by decide) x y 6).symm⟩
  case shlVx x => exact .inr ⟨⟨x, .inr rfl⟩, (encXYN_and_FF0F (by decide) x y 14).symm⟩
  all_goals exact .inl rfl

/-! ### The lines of the opcode table -/

/-- The table has a line for each constructor. -/
theorem ctorIdx_lt_length (i : Instr) : i.ctorIdx < opcodeTable.length := by
  cases i <;> exact Nat.le_of_ble_eq_true rfl

/-- The line of an instruction: the table lists them in the order of the constructors. -/
def rowOf (i : Instr) : OpcodeRow := opcodeTable[i.ctorIdx]'(ctorIdx_lt_length i)

theorem rowOf_mem (i : Instr) : rowOf i ∈ opcodeTable := List.getElem_mem _

theorem mnemonic_rowOf (i : Instr) : (rowOf i).mnemonic = mnemonicOf i := by
  cases i <;> rfl

/-- Every word of an instruction matches its line, format by format: the mask keeps the digits that are fixed. -/
theorem wordWithY_matches (y : Reg) (i : Instr) : wordWithY y i &&& (rowOf i).mask = (rowOf i).pattern := by
  apply BitVec.eq_of_toNat_eq
  cases i
  case cls | ret | scr | scl | exit | low | high => exact congrArg _ (and_FFFF _)
  case scd n => exact (toNat_and_FFF0 (encWN _ n)).trans (by rw [top_encWN (by decide)]; rfl)
  case jp | call | jpV0 | ldI => exact (toNat_and_F000 (encA ..)).trans (by rw [class_encA (by decide)]; rfl)
  case seVxKk | sneVxKk | ldVxKk | addVxKk | rndVxKk =>
    exact (toNat_and_F000 (encXK ..)).trans (by rw [class_encXK (by decide)]; rfl)
  case drwVxVyN => exact (toNat_and_F000 (encXYN ..)).trans (by rw [class_encXYN (by decide)]; rfl)
  case seVxVy | sgtVxVy | sltVxVy | sne5VxVy | ldVxVy | orVxVy | andVxVy | xorVxVy | addVxVy | subVxVy | subnVxVy
      | shrVx | shlVx | sneVxVy | mulVxVy | divVxVy | bcdVxVy =>
    exact (toNat_and_F00F (encXYN ..)).trans (by rw [class_encXYN (by decide), low_encXYN (by decide)]; rfl)
  case skpVx | sknpVx | addIVx | ldFVx | ldHfVx | ldBVx | ldMemVx | ldVxMem | ldRVx | ldVxR | ldVxDt | ldVxK
      | ldDtVx | ldStVx | ldAVx =>
    exact (toNat_and_F0FF (encXS ..)).trans
      (by rw [class_encXS (by decide) (by decide), low_encXS (by decide) (by decide)]; rfl)

/-- Two different lines disagree on a digit that both fix. -/
theorem rows_apart :
    ∀ r ∈ opcodeTable, ∀ r' ∈ opcodeTable, r.pattern &&& r'.mask = r'.pattern &&& r.mask → r = r' := by
  decide

/-- No two lines match one word. -/
theorem row_unique {w : Word} {r r' : OpcodeRow} (hr : r ∈ opcodeTable) (hr' : r' ∈ opcodeTable)
    (h : w &&& r.mask = r.pattern) (h' : w &&& r'.mask = r'.pattern) : r = r' := by
  apply rows_apart r hr r' hr'
  rw [← h, ← h', BitVec.and_assoc, BitVec.and_assoc, BitVec.and_comm r.mask]

/-- No line matches an invalid word: line by line, the fixed digits are none of those the spec rejects. -/
theorem not_rejected_of_matches (w : Word) :
    ∀ row ∈ opcodeTable, w &&& row.mask = row.pattern → ¬ Rejected w := by
  simp only [opcodeTable, List.forall_mem_append, List.forall_mem_cons, ← BitVec.toNat_inj, toNat_and_F000,
    toNat_and_F00F, toNat_and_F0FF, toNat_and_FFF0, and_FFFF, BitVec.reduceToNat]
  and_intros
  all_goals simp only [Rejected, List.mem_cons, List.not_mem_nil, false_imp_iff, implies_true, or_false] <;> omega

/-- A word that decodes matches the line of its instruction. -/
theorem exists_row_of_decode {w : Word} {i : Instr} (h : decode w = .ok i) :
    ∃ row ∈ opcodeTable, row.mnemonic = mnemonicOf i ∧ w &&& row.mask = row.pattern := by
  obtain ⟨y, rfl⟩ := exists_word_of_decode h
  exact ⟨rowOf i, rowOf_mem i, mnemonic_rowOf i, wordWithY_matches y i⟩

/-- A word that matches a line decodes, and to an instruction of that line since it matches no other. -/
theorem exists_decode_of_row {w : Word} {row : OpcodeRow} (hrow : row ∈ opcodeTable)
    (hmatch : w &&& row.mask = row.pattern) : ∃ i, decode w = .ok i ∧ mnemonicOf i = row.mnemonic := by
  cases h : decode w with
  | ok i =>
    obtain ⟨row', hrow', hmnemonic, hmatch'⟩ := exists_row_of_decode h
    exact ⟨i, rfl, by rw [row_unique hrow hrow' hmatch hmatch', hmnemonic]⟩
  | error e => exact absurd (rejected_of_decode h) (not_rejected_of_matches w row hrow hmatch)

/-- Settles O4: a decoded word is one of its instruction's, which match its line; a matched word is not invalid, and
no other line matches it. -/
theorem decodeAgreesWithTheOpcodeTable : Obligations.DecodeAgreesWithTheOpcodeTable := fun _ =>
  ⟨fun _ => exists_row_of_decode, fun _ => exists_decode_of_row⟩

/-- The decoder rejects the invalid words and no others: one that decodes matches a line. -/
theorem decode_eq_error_iff (w : Word) : decode w = .error (.invalidOpcode w) ↔ Rejected w := by
  refine ⟨rejected_of_decode, fun hrejected => ?_⟩
  cases h : decode w with
  | ok i =>
    obtain ⟨row, hrow, -, hmatch⟩ := exists_row_of_decode h
    exact absurd hrejected (not_rejected_of_matches w row hrow hmatch)
  | error e => rw [decode_error h]

/-- Settles O5: `Rejected` is the list the statement writes out. -/
theorem invalidWordsAreThoseTheSpecLists : Obligations.InvalidWordsAreThoseTheSpecLists := fun w =>
  ⟨fun _ => decode_error, decode_eq_error_iff w⟩

/-! ### Unused fields -/

/-- Every line fixes the class, and those of the classes E and F fix the low byte beside it. -/
theorem mask_of_row :
    ∀ row ∈ opcodeTable, row.mask &&& 0xF000 = 0xF000 ∧
      (row.pattern &&& 0xF000 = 0xE000 ∨ row.pattern &&& 0xF000 = 0xF000 → row.mask = 0xF0FF) := by
  decide

/-- A line and a word it matches have the same class. -/
theorem class_of_matches {w : Word} {row : OpcodeRow} (hrow : row ∈ opcodeTable)
    (hmatch : w &&& row.mask = row.pattern) : row.pattern &&& 0xF000 = w &&& 0xF000 := by
  rw [← hmatch, BitVec.and_assoc, (mask_of_row row hrow).1]

/-- In the classes E and F a line that matches a word matches it with any other X, so the low byte alone selects the
form (30_encoding.md R94). -/
theorem exists_decode_encXS {cls sub : Nat} {x : Reg} {i : Instr} (hcls : cls = 14 ∨ cls = 15) (hsub : sub < 256)
    (h : decode (encXS cls x sub) = .ok i) (x' : Reg) :
    ∃ i', decode (encXS cls x' sub) = .ok i' ∧ mnemonicOf i' = mnemonicOf i := by
  have hlt : cls < 16 := by omega
  obtain ⟨row, hrow, hmnemonic, hmatch⟩ := exists_row_of_decode h
  have hclass : row.pattern &&& 0xF000 = 0xE000 ∨ row.pattern &&& 0xF000 = 0xF000 := by
    simp only [class_of_matches hrow hmatch, ← BitVec.toNat_inj, toNat_and_F000, class_encXS hlt hsub,
      BitVec.reduceToNat]
    omega
  have hmask : row.mask = 0xF0FF := (mask_of_row row hrow).2 hclass
  have hsame : encXS cls x' sub &&& 0xF0FF = encXS cls x sub &&& 0xF0FF := by
    apply BitVec.eq_of_toNat_eq
    simp only [toNat_and_F0FF, class_encXS hlt hsub, low_encXS hlt hsub]
  have hmatch' : encXS cls x' sub &&& row.mask = row.pattern := by rw [← hmatch, hmask, hsame]
  rw [← hmnemonic]
  exact exists_decode_of_row hrow hmatch'

/-- An instruction that ends in `setResultFlag` writes the result and the flag, and nothing else. -/
theorem writesResultAndFlag_of_exec {i : Instr} {s : State} {x : Reg} {result flag : Byte}
    (h : exec i s = .next (s.setResultFlag x result flag)) :
    WritesResultAndFlag i s x result.toNat flag.toNat := by
  obtain ⟨hflag, hresult, hothers, hframe⟩ := s.setResultFlag_spec x result flag
  exact ⟨_, h, fun hx => congrArg _ (hresult hx), congrArg _ hflag, hothers, hframe⟩

/-- SHR halves the register and reports the bit it shifts out (42_alu.md R169). -/
theorem writesResultAndFlag_shrVx (x : Reg) (s : State) :
    WritesResultAndFlag (.shrVx x) s x ((s.getV x).toNat / 2) ((s.getV x).toNat % 2) := by
  have hresult : (s.getV x >>> 1).toNat = (s.getV x).toNat / 2 := BitVec.toNat_ushiftRight ..
  rw [← hresult, ← toNat_shrFlag]
  exact writesResultAndFlag_of_exec rfl

/-- SHL doubles the register mod 256 and reports the bit it shifts out (R171). -/
theorem writesResultAndFlag_shlVx (x : Reg) (s : State) :
    WritesResultAndFlag (.shlVx x) s x ((s.getV x).toNat * 2 % 256) ((s.getV x).toNat / 128) := by
  have hresult : (s.getV x <<< 1).toNat = (s.getV x).toNat * 2 % 256 := by
    rw [BitVec.toNat_shiftLeft, Nat.shiftLeft_eq]
  rw [← hresult, ← toNat_shlFlag]
  exact writesResultAndFlag_of_exec rfl

/-- JP V0 adds V[0] to the address, mod 4096 (30_encoding.md R96). -/
theorem writesPc_jpV0 (nnn : Addr) (s : State) :
    WritesPc (.jpV0 nnn) s ((nnn.toNat + (s.getV 0).toNat) % 4096) :=
  ⟨_, rfl, by simp, rfl⟩

/-- Settles O6: the words of a shift for all Y, its meaning, an invalid class 0 word, and the lines of the classes E
and F. -/
theorem unusedFieldsTakeNoPart : Obligations.UnusedFieldsTakeNoPart := by
  refine ⟨fun x y => ⟨decode_wordWithY y (.shrVx x), decode_wordWithY y (.shlVx x)⟩,
    fun x s => ⟨writesResultAndFlag_shrVx x s, writesResultAndFlag_shlVx x s⟩, fun w hclass hx => ?_,
    fun cls x x' sub i hcls h => exists_decode_encXS hcls sub.isLt h x',
    fun nnn s => ⟨decode_wordWithY 0 (.jpV0 nnn), writesPc_jpV0 nnn s⟩⟩
  rw [decode_eq_error_iff]
  exact .inl (by omega)

/-- Settles O1: nine fixed words, evaluated. -/
theorem decodeReadsWordsOfTheTable : Obligations.DecodeReadsWordsOfTheTable := by
  unfold Obligations.DecodeReadsWordsOfTheTable
  decide

end Sys2Proof.Machine
end

section
/-! Proofs of the statements about the control-flow instructions (40_control_flow.md). -/

namespace Sys2Proof.Machine

/-! ### The return stack -/

/-- A pop undoes a push, wherever PC went in between: SP is back, PC is the address pushed, and the entry stays
(R121, R123). -/
theorem State.popPc_push (s : State) (a p : Addr) :
    ((s.push a).setPc p).popPc = { s with stack := (s.push a).stack, pc := a } := by
  simp [State.push, State.setPc, State.popPc]

/-- The entry at SP holds the address pushed, every other entry is as before (R123). -/
theorem State.getElem_push_stack (s : State) (a : Addr) (k : Fin 16) :
    (s.push a).stack[k] = if k.val = s.sp.toNat then a else s.stack[k] := by
  simp [Vector.getElem_set, eq_comm]

/-- Settles O25: PC between the two instructions takes no part, so the RET pops what the CALL pushed. -/
theorem callThenRetResumesAfterTheCall : Obligations.CallThenRetResumesAfterTheCall := fun s nnn p => by
  have hcall : exec (.call nnn) s = .next ((s.push s.pc).setPc nnn) := rfl
  have hret : exec .ret ((s.push s.pc).setPc p) = .next { s with stack := (s.push s.pc).stack } :=
    congrArg Host.Outcome.next (s.popPc_push s.pc p)
  exact ⟨_, _, hcall, hret, rfl, rfl, rfl⟩

/-! ### The five instructions -/

/-- Settles O20: the display becomes the cleared surface, on which every pixel is 0. -/
theorem clsClearsEveryPixel : Obligations.ClsClearsEveryPixel :=
  ⟨decode_wordWithY 0 .cls, fun _ => ⟨_, rfl, rfl, Display.pixel_clear, rfl⟩⟩

/-- Settles O21: to subtract 1 from SP is to add 15, mod 16. -/
theorem retPopsTheStack : Obligations.RetPopsTheStack := by
  refine ⟨decode_wordWithY 0 .ret, fun s => ⟨s.popPc, rfl, ?_, rfl, rfl⟩⟩
  have hlt := s.sp.isLt
  rw [State.popPc_sp, BitVec.toNat_sub]
  simp only [BitVec.reduceToNat]
  omega

/-- Settles O22: JP sets PC alone. -/
theorem jpSetsPc : Obligations.JpSetsPc := fun _ nnn =>
  ⟨decode_wordWithY 0 (.jp nnn), rfl⟩

/-- Settles O23: the push of the advanced PC, entry by entry, then the jump. -/
theorem callPushesTheReturnAddress : Obligations.CallPushesTheReturnAddress := fun s nnn =>
  ⟨decode_wordWithY 0 (.call nnn), (s.push s.pc).setPc nnn, rfl, s.getElem_push_stack s.pc,
    BitVec.toNat_add s.sp 1, rfl, rfl⟩

/-- Settles O24: the word of JP V0, and the address it leaves in PC. -/
theorem jpV0AddsRegisterZero : Obligations.JpV0AddsRegisterZero := fun s nnn =>
  ⟨decode_wordWithY 0 (.jpV0 nnn), writesPc_jpV0 nnn s⟩

end Sys2Proof.Machine
end

section
/-! Proofs of the statements about the conditional skips (41_skip.md). -/

namespace Sys2Proof.Machine

/-- What a skip leaves in PC, when its test decides the condition `p` (R147). -/
theorem State.toNat_pc_skipIf (s : State) {c : Bool} {p : Prop} [Decidable p] (hc : c = true ↔ p) :
    (s.skipIf c).pc.toNat = if p then (s.pc.toNat + 2) % 4096 else s.pc.toNat := by
  have hskip : (s.pc + 2).toNat = (s.pc.toNat + 2) % 4096 := BitVec.toNat_add s.pc 2
  rw [State.skipIf_eq]
  by_cases hp : p
  · rw [if_pos hp, ← hskip, if_pos (hc.mpr hp)]
  · rw [if_neg hp, if_neg (mt hc.mp hp)]

/-- An instruction that ends in `skipIf` adds 2 to PC when its condition holds, and writes nothing else. -/
theorem writesPc_of_exec_skipIf {i : Instr} {s : State} {c : Bool} {p : Prop} [Decidable p]
    (h : exec i s = .next (s.skipIf c)) (hc : c = true ↔ p) :
    WritesPc i s (if p then (s.pc.toNat + 2) % 4096 else s.pc.toNat) :=
  ⟨s.skipIf c, h, s.toNat_pc_skipIf hc, s.skipIf_eq c⟩

/-! ### The tests, as comparisons of naturals -/

/-- The test of SE. -/
theorem beq_iff_toNat_eq (a b : Byte) : (a == b) = true ↔ a.toNat = b.toNat :=
  beq_iff_eq.trans BitVec.toNat_inj.symm

/-- The test of SNE. -/
theorem bne_iff_toNat_ne (a b : Byte) : (a != b) = true ↔ a.toNat ≠ b.toNat :=
  bne_iff_ne.trans BitVec.toNat_inj.symm.not

/-- The test of SLT, and of SGT with the operands exchanged: the order is unsigned. -/
theorem decide_lt_iff_toNat_lt (a b : Byte) : decide (a < b) = true ↔ a.toNat < b.toNat :=
  decide_eq_true_iff.trans BitVec.lt_def

/-- Settles O26: each of the seven instructions ends in `skipIf` with the test of its mnemonic. -/
theorem skipsAddTwoToPcWhenTheConditionHolds : Obligations.SkipsAddTwoToPcWhenTheConditionHolds :=
  fun _ _ _ _ =>
    ⟨writesPc_of_exec_skipIf rfl (beq_iff_toNat_eq ..), -- SE Vx, kk
      writesPc_of_exec_skipIf rfl (bne_iff_toNat_ne ..), -- SNE Vx, kk
      writesPc_of_exec_skipIf rfl (beq_iff_toNat_eq ..), -- SE Vx, Vy
      writesPc_of_exec_skipIf rfl (decide_lt_iff_toNat_lt ..), -- SGT Vx, Vy: `V[Y] < V[X]`
      writesPc_of_exec_skipIf rfl (decide_lt_iff_toNat_lt ..), -- SLT Vx, Vy
      writesPc_of_exec_skipIf rfl (bne_iff_toNat_ne ..), -- SNE Vx, Vy (5xy3)
      writesPc_of_exec_skipIf rfl (bne_iff_toNat_ne ..)⟩ -- SNE Vx, Vy (9xy0)

end Sys2Proof.Machine
end

section
/-! Proofs of the statements about register load and arithmetic (42_alu.md). -/

namespace Sys2Proof.Machine

/-- An instruction that ends in `setV` writes that register, and nothing else. -/
theorem writesRegister_of_exec {i : Instr} {s : State} {x : Reg} {value : Byte}
    (h : exec i s = .next (s.setV x value)) : WritesRegister i s x value := by
  refine ⟨_, h, ?_, fun r hr => ?_, rfl⟩
  · rw [State.getV_setV, if_pos rfl]
  · rw [State.getV_setV, if_neg hr]

/-! ### The results, as naturals -/

/-- The sum of two bytes is the sum of their numbers mod 256 (R162). -/
theorem add_eq_ofNat_mod (a b : Byte) : a + b = BitVec.ofNat 8 ((a.toNat + b.toNat) % 256) :=
  BitVec.eq_of_toNat_eq (by rw [BitVec.toNat_ofNat, Nat.mod_mod, BitVec.toNat_add])

/-- The difference a subtraction leaves, plus 256 when it borrows (R168, R170). -/
theorem toNat_sub_eq_ite_borrow (minuend subtrahend : Byte) :
    (minuend - subtrahend).toNat = if minuend.toNat ≥ subtrahend.toNat then minuend.toNat - subtrahend.toNat
      else minuend.toNat + 256 - subtrahend.toNat := by
  split
  case isTrue hge => exact BitVec.toNat_sub_of_le (BitVec.le_def.mpr hge)
  case isFalse hlt =>
    rw [BitVec.toNat_sub_of_lt (BitVec.lt_def.mpr (Nat.lt_of_not_ge hlt))]
    omega

/-! ### The instructions -/

/-- ADD leaves the sum mod 256 and its carry (R167). -/
theorem writesResultAndFlag_addVxVy (x y : Reg) (s : State) :
    WritesResultAndFlag (.addVxVy x y) s x (((s.getV x).toNat + (s.getV y).toNat) % 256)
      (if (s.getV x).toNat + (s.getV y).toNat > 255 then 1 else 0) := by
  have hsum : (s.getV x + s.getV y).toNat = ((s.getV x).toNat + (s.getV y).toNat) % 256 := BitVec.toNat_add ..
  rw [← hsum, ← toNat_carryFlag]
  exact writesResultAndFlag_of_exec rfl

/-- An instruction that subtracts leaves the difference mod 256 and 1 in VF when it does not borrow. -/
theorem writesResultAndFlag_of_exec_sub {i : Instr} {s : State} {x : Reg} {minuend subtrahend : Byte}
    (h : exec i s = .next (s.setResultFlag x (minuend - subtrahend) (noBorrowFlag minuend subtrahend))) :
    WritesResultAndFlag i s x
      (if minuend.toNat ≥ subtrahend.toNat then minuend.toNat - subtrahend.toNat
        else minuend.toNat + 256 - subtrahend.toNat)
      (if minuend.toNat ≥ subtrahend.toNat then 1 else 0) := by
  rw [← toNat_sub_eq_ite_borrow, ← toNat_noBorrowFlag]
  exact writesResultAndFlag_of_exec h

/-- Settles O28: SUB and SUBN are one subtraction with the operands exchanged; the laws of the shifts are those of
30_encoding.md. -/
theorem arithmeticLawsOfTheFamily : Obligations.ArithmeticLawsOfTheFamily := fun s x y =>
  ⟨writesResultAndFlag_addVxVy x y s,
    writesResultAndFlag_of_exec_sub rfl, -- SUB Vx, Vy: `V[X] - V[Y]`
    writesResultAndFlag_of_exec_sub rfl, -- SUBN Vx, Vy: `V[Y] - V[X]`
    writesResultAndFlag_shrVx x s,
    Nat.mul_comm 2 (s.getV x).toNat ▸ writesResultAndFlag_shlVx x s⟩

/-- Settles O27: each of the six instructions ends in `setV` with the value of its mnemonic. -/
theorem loadsAndLogicWriteOneRegister : Obligations.LoadsAndLogicWriteOneRegister := fun s x _ kk =>
  ⟨writesRegister_of_exec rfl, -- LD Vx, kk
    add_eq_ofNat_mod (s.getV x) kk ▸ writesRegister_of_exec rfl, -- ADD Vx, kk
    writesRegister_of_exec rfl, -- LD Vx, Vy
    writesRegister_of_exec rfl, -- OR Vx, Vy
    writesRegister_of_exec rfl, -- AND Vx, Vy
    writesRegister_of_exec rfl⟩ -- XOR Vx, Vy

end Sys2Proof.Machine
end

section
/-! Proofs of the statements about multiply, divide and 16-bit BCD (43_ext_arith.md). -/

namespace Sys2Proof.Machine

/-! ### The results, as naturals -/

/-- The low byte of the product (R190). -/
theorem toNat_mulLow (a b : Byte) : (mulLow a b).toNat = a.toNat * b.toNat % 256 :=
  BitVec.toNat_ofNat ..

/-- The quotient of DIV by a divisor other than 0 (R191). -/
theorem toNat_quotRem_quotient {a b : Byte} (hb : b.toNat ≠ 0) : (quotRem a b).1.toNat = a.toNat / b.toNat := by
  have hne : b ≠ 0 := fun h => hb (congrArg BitVec.toNat h)
  rw [quotRem, if_neg hne, BitVec.toNat_udiv]

/-- DIV by 0 takes both its values from DIV0 (R191, D13). -/
theorem quotRem_of_zero {a b : Byte} (hb : b.toNat = 0) : quotRem a b = Config.div0 a := by
  have hzero : b = 0 := BitVec.eq_of_toNat_eq hb
  rw [quotRem, if_pos hzero]

/-- The five digits of a 16-bit word rebuild it (R193). -/
theorem eq_sum_of_five_digits {w : Nat} (hw : w < 65536) :
    w = w / 10000 % 10 * 10000 + w / 1000 % 10 * 1000 + w / 100 % 10 * 100 + w / 10 % 10 * 10 + w % 10 := by
  omega

/-- A register pair is a 16-bit word (R192). -/
theorem State.pairOperand_lt (s : State) (x y : Reg) : s.pairOperand x y < 65536 := by
  have hhigh := (s.getV x).isLt
  have hlow := (s.getV y).isLt
  unfold State.pairOperand
  omega

/-! ### The instructions -/

/-- With X other than 15 the result and the flag stand in two registers of one next state. -/
theorem WritesResultAndFlag.exists_next {i : Instr} {s : State} {x : Reg} {result flag : Nat}
    (h : WritesResultAndFlag i s x result flag) (hx : x ≠ 15) :
    ∃ t, exec i s = .next t ∧ (t.getV x).toNat = result ∧ (t.getV 15).toNat = flag := by
  obtain ⟨t, hexec, hresult, hflag, -, -⟩ := h
  exact ⟨t, hexec, hresult hx, hflag⟩

/-- MUL leaves the low byte of the product and, in VF, the high byte (R190). -/
theorem writesResultAndFlag_mulVxVy (x y : Reg) (s : State) :
    WritesResultAndFlag (.mulVxVy x y) s x ((s.getV x).toNat * (s.getV y).toNat % 256)
      ((s.getV x).toNat * (s.getV y).toNat / 256) := by
  rw [← toNat_mulLow, ← toNat_mulHigh]
  exact writesResultAndFlag_of_exec rfl

/-- DIV by a divisor other than 0 leaves the quotient and, in VF, the remainder (R191). -/
theorem writesResultAndFlag_divVxVy (x : Reg) {y : Reg} {s : State} (hb : (s.getV y).toNat ≠ 0) :
    WritesResultAndFlag (.divVxVy x y) s x ((s.getV x).toNat / (s.getV y).toNat)
      ((s.getV x).toNat % (s.getV y).toNat) := by
  rw [← toNat_quotRem_quotient hb, ← toNat_quotRem_remainder hb]
  exact writesResultAndFlag_of_exec rfl

/-- DIV by 0 goes on with the two values of DIV0 (R191). -/
theorem writesResultAndFlag_divVxVy_of_zero (x : Reg) {y : Reg} {s : State} (hb : (s.getV y).toNat = 0) :
    WritesResultAndFlag (.divVxVy x y) s x (Config.div0 (s.getV x)).1.toNat (Config.div0 (s.getV x)).2.toNat := by
  rw [← quotRem_of_zero hb]
  exact writesResultAndFlag_of_exec rfl

/-- An instruction that ends in `storeAtI` stores these bytes from `I` upward, and changes nothing else
(44_mem_index.md R207). -/
theorem storesAtIndex_of_exec {i : Instr} {s : State} {bytes : List Byte} (hfits : bytes.length ≤ 4096)
    (h : exec i s = .next (s.storeAtI bytes)) : StoresAtIndex i s bytes :=
  ⟨_, h, fun k hk => Memory.read_writeBytes_inside s.mem s.i bytes hfits k hk,
    fun a ha => Memory.read_writeBytes_outside s.mem s.i a bytes hfits ha, s.storeAtI_eq bytes⟩

/-- BCD stores the five digits of the register pair (R192). -/
theorem storesAtIndex_bcdVxVy (x y : Reg) (s : State) :
    StoresAtIndex (.bcdVxVy x y) s (bcd5 (s.pairOperand x y)) :=
  storesAtIndex_of_exec (by simp [bcd5]) rfl

/-- Settles O30: the high and the low byte rebuild the product, quotient and remainder the dividend, and the digits
that BCD stores the register pair. -/
theorem multiplyDivideAndBcdLaws : Obligations.MultiplyDivideAndBcdLaws := by
  intro s x y
  have hmul := writesResultAndFlag_mulVxVy x y s
  refine ⟨hmul, fun hx => ?product, fun hb => ⟨writesResultAndFlag_divVxVy x hb, fun hx => ?division⟩,
    writesResultAndFlag_divVxVy_of_zero x, ?digits⟩
  case product =>
    obtain ⟨t, hexec, hlow, hhigh⟩ := hmul.exists_next hx
    refine ⟨t, hexec, ?_⟩
    rw [hlow, hhigh]
    exact Nat.div_add_mod' ..
  case division =>
    obtain ⟨t, hexec, hquotient, hremainder⟩ := (writesResultAndFlag_divVxVy x hb).exists_next hx
    refine ⟨t, hexec, ?_⟩
    rw [hquotient, hremainder]
    exact ⟨(Nat.div_add_mod' ..).symm, Nat.mod_lt _ (Nat.pos_of_ne_zero hb)⟩
  case digits =>
    have hdigit (n : Nat) : n % 10 < 10 := Nat.mod_lt n (by decide)
    exact ⟨_, _, _, _, _, hdigit _, hdigit _, hdigit _, hdigit _, hdigit _,
      eq_sum_of_five_digits (s.pairOperand_lt x y), storesAtIndex_bcdVxVy x y s⟩

end Sys2Proof.Machine
end

section
/-! Proofs of the statements about the index register, memory and the auxiliary bank (44_mem_index.md). -/

namespace Sys2Proof.Machine

/-! ### The index register -/

/-- Settles O31: LD I sets I alone. -/
theorem loadIndexSetsI : Obligations.LoadIndexSetsI := fun _ nnn =>
  ⟨decode_wordWithY 0 (.ldI nnn), rfl⟩

/-- The sum ADD I, Vx leaves in I (R201). -/
theorem toNat_indexSum (i : Addr) (b : Byte) : (indexSum i b).toNat = (i.toNat + b.toNat) % 4096 := by
  have hwide : (b.setWidth 12).toNat = b.toNat := BitVec.toNat_setWidth_of_le (by decide)
  rw [indexSum, BitVec.toNat_add, hwide]

/-- Settles O32: I holds the sum, and VF, written last, the overflow of the old values. -/
theorem addIndexWrapsAndReportsOverflow : Obligations.AddIndexWrapsAndReportsOverflow := by
  refine fun s x => ⟨_, rfl, toNat_indexSum s.i (s.getV x), ?flag, fun r hr => ?others, rfl⟩
  case flag => rw [State.getV_setV_flagReg, toNat_indexOverflowFlag]
  case others => rw [State.getV_setV, if_neg (show r ≠ flagReg from hr), State.getV_setI]

/-- An instruction that ends in `setI` writes I, and nothing else. -/
theorem writesIndex_of_exec {i : Instr} {s : State} {a : Addr} (h : exec i s = .next (s.setI a)) :
    WritesIndex i s a.toNat :=
  ⟨_, h, rfl, rfl⟩

/-- The address of a small glyph does not wrap (R202). -/
theorem toNat_smallGlyph (digit : Byte) : (smallGlyph digit).toNat = 5 * digit.toNat := by
  have := digit.isLt
  rw [smallGlyph, BitVec.toNat_ofNat]
  omega

/-- The address of a large glyph does not wrap (R203). -/
theorem toNat_largeGlyph (digit : Byte) : (largeGlyph digit).toNat = 80 + 10 * digit.toNat := by
  have := digit.isLt
  rw [largeGlyph, BitVec.toNat_ofNat]
  omega

/-- Settles O33: both instructions end in `setI` with the address of the glyph. -/
theorem glyphAddressesUseTheWholeByte : Obligations.GlyphAddressesUseTheWholeByte := fun s x =>
  ⟨toNat_smallGlyph (s.getV x) ▸ writesIndex_of_exec rfl, toNat_largeGlyph (s.getV x) ▸ writesIndex_of_exec rfl⟩

/-! ### Stores at I -/

/-- Settles O34: LD B ends in `storeAtI` with the three digits. -/
theorem loadBcdStoresThreeDigits : Obligations.LoadBcdStoresThreeDigits := fun s x =>
  storesAtIndex_of_exec (bytes := bcd3 (s.getV x)) (by simp [bcd3]) rfl

/-- LD [I], Vx stores `V[0]` to `V[x]` (R205). -/
theorem storesAtIndex_ldMemVx (x : Reg) (s : State) : StoresAtIndex (.ldMemVx x) s (s.regsUpTo x) :=
  storesAtIndex_of_exec (by rw [State.length_regsUpTo]; omega) rfl

/-- Settles O35: byte `k` of the range stored is `V[k]`, and the range has `x + 1` bytes. -/
theorem storeRegistersWritesXPlusOneBytes : Obligations.StoreRegistersWritesXPlusOneBytes := by
  intro s x
  obtain ⟨t, hexec, hinside, houtside, hframe⟩ := storesAtIndex_ldMemVx x s
  rw [State.length_regsUpTo] at houtside
  refine ⟨decode_wordWithY 0 (.ldMemVx x), t, hexec, fun k hk => ?_, houtside, hframe⟩
  have hin : k.val < (s.regsUpTo x).length := by rw [State.length_regsUpTo]; omega
  rw [hinside k.val hin, State.getElem_regsUpTo]

/-! ### Counted register loads -/

/-- `setRegsBelow` writes registers only. -/
theorem State.setRegsBelow_eq (s : State) (n : Nat) (f : Nat → Byte) :
    s.setRegsBelow n f = { s with v := (s.setRegsBelow n f).v } := rfl

/-- A register that LD Vx, [I] loads takes the byte at its place from I (R206). -/
theorem State.getV_loadFromI (s : State) {x k : Reg} (hk : k.val ≤ x.val) :
    (s.setRegsBelow (x.val + 1) s.byteAtI).getV k = Memory.read s.mem (s.i + BitVec.ofNat 12 k.val) := by
  rw [State.getV_setRegsBelow, if_pos (Nat.lt_succ_of_le hk), State.byteAtI]

/-- Settles O36: the registers up to `V[x]` come from memory at I, where a store of as many registers leaves their
values. -/
theorem loadRegistersReadsXPlusOneBytes : Obligations.LoadRegistersReadsXPlusOneBytes := by
  refine ⟨fun s x => ⟨decode_wordWithY 0 (.ldVxMem x), _, rfl, fun k hk => s.getV_loadFromI hk, fun k hk => ?kept,
    s.setRegsBelow_eq _ _⟩, fun s u x => ⟨_, rfl, fun hmem hi => ⟨_, rfl, fun k hk => ?roundTrip⟩⟩⟩
  case kept => rw [State.getV_setRegsBelow, if_neg (Nat.not_lt.mpr hk)]
  case roundTrip => rw [u.getV_loadFromI hk, hmem, hi, s.read_storeAtI_regsUpTo hk]

/-! ### The auxiliary bank -/

/-- Settles O37: the bank and the registers, entry by entry, as the two instructions write them. -/
theorem auxiliaryBankMovesLowTwoBitsOfCount : Obligations.AuxiliaryBankMovesLowTwoBitsOfCount := by
  refine fun s x => ⟨⟨_, rfl, fun k => ?save, rfl⟩, ⟨_, rfl, fun k => ?restore, s.setRegsBelow_eq _ _⟩⟩
  case save => exact Vector.getElem_ofFn k.isLt
  case restore => rw [State.getV_setRegsBelow, transferCount]

end Sys2Proof.Machine
end

section
/-! Proofs of the statements about the random byte, sprites, keys and timers (45_io.md). -/

namespace Sys2Proof.Machine

/-! ### The sprite compositor -/

/-- The operations of a whole sprite, one for each bit of each row (R234). -/
theorem mem_spriteOps_zero (originX originY : Byte) (bytes : List Byte) (op : PixelOp) :
    op ∈ spriteOps originX originY 0 bytes ↔
      ∃ (r b : Nat) (hr : r < bytes.length), b < 8 ∧
        op = { y := spriteRow originY r, x := spriteCol originX b, bit := bytes[r].getLsbD (7 - b) } := by
  simp only [mem_spriteOps, Nat.zero_add]

/-- The compositor draws any sprite that has no more rows than the display: its operations name no pixel twice, so
each acts on the display as it was before the call (R233). -/
theorem drawsSprite_drawSprite (d : Display) (originX originY : Byte) {bytes : List Byte}
    (hlen : bytes.length ≤ 32) :
    DrawsSprite d (Display.drawSprite d originX originY bytes).1 (Display.drawSprite d originX originY bytes).2
      originX originY bytes := by
  have hapart := spriteOps_apart originX originY 0 bytes (by omega)
  refine ⟨fun r b hr hb => ?drawn, fun y x houtside => ?kept, ?collision⟩
  case drawn =>
    exact Display.pixel_run_of_mem d false _ hapart _ ((mem_spriteOps_zero ..).mpr ⟨r, b, hr, hb, rfl⟩)
  case kept =>
    refine Display.pixel_run_untouched d false _ y x ?_
    rintro op hop ⟨rfl, rfl⟩
    obtain ⟨r, b, hr, hb, rfl⟩ := (mem_spriteOps_zero ..).mp hop
    exact houtside r b hr hb ⟨rfl, rfl⟩
  case collision =>
    refine (Display.hit_run d false _ hapart).trans ⟨?_, ?_⟩
    · rintro (h | ⟨op, hop, hset, hbit⟩)
      · cases h
      · obtain ⟨r, b, hr, hb, rfl⟩ := (mem_spriteOps_zero ..).mp hop
        exact ⟨r, b, hr, hb, hset, hbit⟩
    · rintro ⟨r, b, hr, hb, hset, hbit⟩
      exact .inr ⟨_, (mem_spriteOps_zero ..).mpr ⟨r, b, hr, hb, rfl⟩, hset, hbit⟩

/-- Settles O43: 15 rows are no more than the display has. -/
theorem compositorDrawsWithWrapAndReportsErasure : Obligations.CompositorDrawsWithWrapAndReportsErasure :=
  fun d originX originY _ hlen => drawsSprite_drawSprite d originX originY (Nat.le_trans hlen (by decide))

/-- Settles O44: DRW is the compositor on the bytes at I, with the collision written to VF last. -/
theorem drawReadsSpriteAtIndexAndSetsVf : Obligations.DrawReadsSpriteAtIndexAndSetsVf := by
  refine fun s x y n => ⟨_, s.loadAtI n.val, _, rfl, Memory.length_readBytes .., fun k hk => ?sprite,
    drawsSprite_drawSprite s.disp _ _ (s.length_loadAtI_le n), State.getV_setV_flagReg .., fun r hr => ?others, rfl⟩
  case sprite => exact Memory.getElem_readBytes _ _ _ _ hk
  case others => rw [State.getV_setV, if_neg (show r ≠ flagReg from hr), State.getV_setDisp]

/-! ### Drawing twice -/

/-- A byte is not 0 exactly if one of its bits, counted from bit 7 down, is 1. -/
theorem byte_ne_zero_iff_exists_bit (byte : Byte) : byte ≠ 0 ↔ ∃ b < 8, byte.getLsbD (7 - b) = true := by
  constructor
  · intro hne
    by_contra hno
    push Not at hno
    refine hne (BitVec.eq_of_getLsbD_eq fun j hj => ?_)
    have hbit := hno (7 - j) (by omega)
    rw [Nat.sub_sub_self (by omega)] at hbit
    simpa using hbit
  · rintro ⟨b, -, hbit⟩ rfl
    simp at hbit

/-- A sprite has a byte other than 0 exactly if it has a 1 bit in some row. -/
theorem exists_ne_zero_iff_exists_bit (bytes : List Byte) :
    (∃ byte ∈ bytes, byte ≠ 0) ↔
      ∃ (r b : Nat) (hr : r < bytes.length), b < 8 ∧ bytes[r].getLsbD (7 - b) = true := by
  simp only [List.exists_mem_iff_getElem, byte_ne_zero_iff_exists_bit]
  exact ⟨fun ⟨r, hr, b, hb, hbit⟩ => ⟨r, b, hr, hb, hbit⟩, fun ⟨r, b, hr, hb, hbit⟩ => ⟨r, hr, b, hb, hbit⟩⟩

section Twice

variable {d e f : Display} {hit hit' : Bool} {originX originY : Byte} {bytes : List Byte}

/-- A second draw of the same sprite undoes the first: what is XORed twice, or drawn by neither, is as before
(R234). -/
theorem DrawsSprite.restores (first : DrawsSprite d e hit originX originY bytes)
    (second : DrawsSprite e f hit' originX originY bytes) : f = d := by
  obtain ⟨hdrawn, hkept, -⟩ := first
  obtain ⟨hdrawn', hkept', -⟩ := second
  refine Display.ext_pixel fun y x => ?_
  by_cases houtside : ∀ r b : Nat, r < bytes.length → b < 8 →
      ¬ (y.val = (originY.toNat + r) % 32 ∧ x.val = (originX.toNat + b) % 64)
  · rw [hkept' y x houtside, hkept y x houtside]
  · push Not at houtside
    obtain ⟨r, b, hr, hb, hy, hx⟩ := houtside
    obtain rfl : y = Fin.ofNat 32 (originY.toNat + r) := Fin.ext hy
    obtain rfl : x = Fin.ofNat 64 (originX.toNat + b) := Fin.ext hx
    rw [hdrawn' r b hr hb, hdrawn r b hr hb, Bool.xor_assoc, Bool.xor_self, Bool.xor_false]

/-- The second draw reports a collision exactly if a 1 bit of the sprite met a pixel that was 0 before the first,
which set it. -/
theorem DrawsSprite.second_hit_iff (first : DrawsSprite d e hit originX originY bytes)
    (second : DrawsSprite e f hit' originX originY bytes) :
    hit' = true ↔ ∃ (r b : Nat) (hr : r < bytes.length), b < 8 ∧
      Display.pixel d (Fin.ofNat 32 (originY.toNat + r)) (Fin.ofNat 64 (originX.toNat + b)) = false ∧
      bytes[r].getLsbD (7 - b) = true := by
  obtain ⟨hdrawn, -, -⟩ := first
  obtain ⟨-, -, hcollision'⟩ := second
  refine hcollision'.trans (exists₃_congr fun r b hr => and_congr_right fun hb => and_congr_left fun hbit => ?_)
  rw [hdrawn r b hr hb, hbit, Bool.xor_true, Bool.not_eq_true']

/-- One of the two draws reports a collision exactly if the sprite has a 1 bit: the pixel it meets is 1 before the
first draw or before the second. -/
theorem DrawsSprite.hit_or_second_hit_iff (first : DrawsSprite d e hit originX originY bytes)
    (second : DrawsSprite e f hit' originX originY bytes) :
    (hit = true ∨ hit' = true) ↔ ∃ byte ∈ bytes, byte ≠ 0 := by
  have hsecond := first.second_hit_iff second
  obtain ⟨-, -, hcollision⟩ := first
  rw [exists_ne_zero_iff_exists_bit, hcollision, hsecond]
  constructor
  · rintro (⟨r, b, hr, hb, -, hbit⟩ | ⟨r, b, hr, hb, -, hbit⟩) <;> exact ⟨r, b, hr, hb, hbit⟩
  · rintro ⟨r, b, hr, hb, hbit⟩
    cases hpixel : Display.pixel d (Fin.ofNat 32 (originY.toNat + r)) (Fin.ofNat 64 (originX.toNat + b)) with
    | true => exact .inl ⟨r, b, hr, hb, hpixel, hbit⟩
    | false => exact .inr ⟨r, b, hr, hb, hpixel, hbit⟩

/-- On a blank display the second draw reports a collision exactly if the sprite has a 1 bit. -/
theorem DrawsSprite.second_hit_iff_of_blank (first : DrawsSprite d e hit originX originY bytes)
    (second : DrawsSprite e f hit' originX originY bytes) (hblank : ∀ y x, Display.pixel d y x = false) :
    hit' = true ↔ ∃ byte ∈ bytes, byte ≠ 0 := by
  simp only [exists_ne_zero_iff_exists_bit, first.second_hit_iff second, hblank, true_and]

end Twice

/-- Settles O45: both calls draw the sprite, so the laws of two draws hold of them. -/
theorem drawingTwiceRestoresTheDisplay : Obligations.DrawingTwiceRestoresTheDisplay := by
  intro d originX originY bytes hlen first second
  have hrows : bytes.length ≤ 32 := by omega
  have hfirst := drawsSprite_drawSprite d originX originY hrows
  have hsecond := drawsSprite_drawSprite first.1 originX originY hrows
  exact ⟨hfirst.restores hsecond, hfirst.hit_or_second_hit_iff hsecond, hfirst.second_hit_iff_of_blank hsecond⟩

/-! ### Keys -/

/-- The number of the key a register names (R240). -/
theorem State.val_keyOperand (s : State) (x : Reg) : (s.keyOperand x).val = (s.getV x).toNat % 16 := rfl

/-- Noting a key sets its bit of KRM and leaves every other bit (10_state.md R29). -/
theorem State.getLsbD_krm_noteKey (s : State) (k : Key) (j : Fin 16) :
    (s.noteKey k).krm.getLsbD j.val = (s.krm.getLsbD j.val || decide (j.val = k.val)) := by
  simp [eq_comm]

/-- Settles O46: both instructions note the key and end in `skipIf`, SKP with the key line and SKNP with its
complement. -/
theorem keySkipsNoteTheKey : Obligations.KeySkipsNoteTheKey := by
  intro s x k skipped
  refine ⟨⟨_, rfl, ?pressed, s.getLsbD_krm_noteKey (s.keyOperand x), rfl⟩,
    ⟨_, rfl, ?released, s.getLsbD_krm_noteKey (s.keyOperand x), rfl⟩⟩
  case pressed => exact State.toNat_pc_skipIf _ Iff.rfl
  case released =>
    rw [← ite_not]
    exact State.toNat_pc_skipIf _ (by simp [State.keyDown, State.val_keyOperand, k])

/-! ### The key wait -/

/-- A listed key event in the key wait writes the key to the register of the opcode in IR, and the run goes on
(R243). -/
theorem step_key_of_wait {s : State} {k : Key} {es : Schedule} (hevents : s.events = .key k :: es)
    (hwait : s.status = .waitKey) :
    step s = .next (({ s with events := es }.setV (fieldX s.ir) (BitVec.ofNat 8 k.val)).setStatus .running) := by
  rw [step_of_nextEvent (State.nextEvent_of_cons hevents), State.dequeue_of_cons hevents]
  exact congrArg Host.Outcome.next (State.keyEvent_of_wait (s := { s with events := es }) hwait k)

/-- A step that fetches Fx0A enters the key wait, with PC past the opcode and the opcode in IR (R243). -/
theorem step_of_fetchWord_ldVxK {s s0 : State} {x : Reg} (hsteps : s.stepsFrom s0)
    (hword : s0.fetchWord = encXS 15 x 0x0A) :
    step s = .next { s0 with ir := encXS 15 x 0x0A, pc := s0.pc + 2, status := .waitKey } := by
  have hdecode : decode s0.fetchWord = .ok (.ldVxK x) := by
    rw [hword]
    exact decode_wordWithY 0 (.ldVxK x)
  rw [← hword]
  calc step s = s0.runInstruction := step_of_stepsFrom hsteps
    _ = exec (.ldVxK x) s0.fetch := State.runInstruction_of_ok hdecode

/-- Settles O49: IR holds the opcode through the wait, so the key event writes the register that Fx0A names. -/
theorem keyWaitTakesTheKeyIntoItsRegister : Obligations.KeyWaitTakesTheKeyIntoItsRegister := by
  refine ⟨fun _ _ => rfl, fun s s0 x k es hsteps hword => ?_⟩
  have hx : fieldX (encXS 15 x 0x0A) = x := fieldX_encXS (by decide) (by decide) x
  refine ⟨_, _, step_of_fetchWord_ldVxK hsteps hword, rfl, step_key_of_wait rfl rfl, ?key, fun r hr => ?others, rfl⟩
  case key =>
    have hbyte : k.val < 2 ^ 8 := by omega
    rw [State.getV_setStatus, State.getV_setV, if_pos hx.symm, BitVec.toNat_ofNat, Nat.mod_eq_of_lt hbyte]
  case others =>
    rw [State.getV_setStatus, State.getV_setV, if_neg (hx.symm ▸ hr)]
    rfl

/-! ### The random byte and the timers -/

/-- Settles O42: RND ends in `setV` with the masked byte of the port. -/
theorem randomByteIsMasked : Obligations.RandomByteIsMasked := fun _ _ _ => writesRegister_of_exec rfl

/-- No instruction reads ST: with another ST it leaves the same state but for ST. -/
theorem exec_setSt {i : Instr} {s t : State} (h : exec i s = .next t) (b : Byte) :
    ∃ c, exec i (s.setSt b) = .next (t.setSt c) := by
  cases i
  case ldStVx x => cases h; exact ⟨s.getV x, rfl⟩
  all_goals cases h; exact ⟨b, rfl⟩

/-- Settles O47: the two words and meanings, and for the last clause that no instruction reads ST. -/
theorem delayTimerMoves : Obligations.DelayTimerMoves := by
  refine fun s x => ⟨decode_wordWithY 0 (.ldVxDt x), writesRegister_of_exec rfl, decode_wordWithY 0 (.ldDtVx x), rfl,
    fun i b => ?_⟩
  obtain ⟨t, ht, -⟩ := exec_effect i s
  obtain ⟨c, hc⟩ := exec_setSt ht b
  exact ⟨t, t.setSt c, ht, hc, rfl⟩

/-- Settles O48: the output compares ST with 0. -/
theorem soundTimerDrivesTheTone : Obligations.SoundTimerDrivesTheTone :=
  ⟨fun _ _ => rfl, fun s => bne_iff_toNat_ne s.st 0⟩

end Sys2Proof.Machine
end

section
/-! Proofs of the statements about the unsupported and the invalid opcodes (46_unsupported.md). -/

namespace Sys2Proof.Machine

/-- Each extension raises UnsupportedOpcode(IR), whatever its operand (60_exceptions.md R302). -/
theorem exec_of_isExtension {i : Instr} (hi : isExtension i = true) (s : State) :
    exec i s = .next { s with diag := s.ir, status := .unsupported } := by
  cases i
  case scd | scr | scl | exit | low | high | ldAVx => exact congrArg Host.Outcome.next (s.raise_eq .unsupported)
  all_goals cases hi

/-- A step that fetches an extension reports the fetched word (R278). -/
theorem step_of_fetchWord_extension {s s0 : State} {i : Instr} (hsteps : s.stepsFrom s0)
    (hdecode : decode s0.fetchWord = .ok i) (hi : isExtension i = true) :
    step s = .next { s0 with ir := s0.fetchWord, pc := s0.pc + 2, diag := s0.fetchWord, status := .unsupported } :=
  calc step s = s0.runInstruction := step_of_stepsFrom hsteps
    _ = exec i s0.fetch := State.runInstruction_of_ok hdecode
    _ = _ := exec_of_isExtension hi s0.fetch

/-- A step that fetches a rejected word reports it (R277, R278). -/
theorem step_of_fetchWord_rejected {s s0 : State} {e : DecodeError} (hsteps : s.stepsFrom s0)
    (hdecode : decode s0.fetchWord = .error e) :
    step s = .next { s0 with ir := s0.fetchWord, pc := s0.pc + 2, diag := s0.fetchWord, status := .invalid } :=
  calc step s = s0.runInstruction := step_of_stepsFrom hsteps
    _ = .next s0.fetch.raiseInvalid := State.runInstruction_of_error hdecode

/-- After the end of the run a scheduled step samples the ports and runs nothing, with a halt request or without
(60_exceptions.md R305, R307). -/
theorem State.stepEvent_of_terminal {s : State} (hterminal : s.status.terminal = true) (p : Pins) :
    s.stepEvent p = .next (s.sample p) := by
  rcases s.stepEvent_cases p with ⟨-, heq⟩ | ⟨-, hrun, -⟩ | ⟨-, -, heq⟩
  · rw [heq, State.haltRequest_of_terminal (s := s.sample p) hterminal]
  · rw [hrun] at hterminal
    cases hterminal
  · exact heq

/-- Settles O9: a word that decoded would match the line of its instruction, so this one is rejected. -/
theorem wordWithoutRowRaisesInvalidOpcode : Obligations.WordWithoutRowRaisesInvalidOpcode := by
  intro s s0 hsteps hnorow
  cases hdecode : decode s0.fetchWord with
  | ok i =>
    obtain ⟨row, hrow, -, hmatch⟩ := exists_row_of_decode hdecode
    exact absurd hmatch (hnorow row hrow)
  | error e => exact step_of_fetchWord_rejected hsteps hdecode

/-- Settles O10: the two errors by what the fetched word decodes to; both outcomes are terminal, so a later scheduled
step only samples the ports. -/
theorem opcodeErrorsWriteDiagAndStatusOnly : Obligations.OpcodeErrorsWriteDiagAndStatusOnly := by
  refine ⟨fun s s0 hsteps => ⟨?extension, ?rejected⟩, rfl, rfl, fun t p hstatus hnext => ?after⟩
  case extension =>
    rintro ⟨i, hdecode, hi⟩
    exact step_of_fetchWord_extension hsteps hdecode hi
  case rejected =>
    rintro ⟨e, hdecode⟩
    exact step_of_fetchWord_rejected hsteps hdecode
  case after =>
    have hterminal : t.status.terminal = true := by rcases hstatus with h | h <;> rw [h] <;> rfl
    rw [step_of_nextEvent hnext]
    exact State.stepEvent_of_terminal (s := t.dequeue) hterminal p

/-- Settles O11: 0x00FD is the word of EXIT, and EXIT is an extension. -/
theorem exitIsUnsupportedNotHalt : Obligations.ExitIsUnsupportedNotHalt := by
  have hexit : decode 0x00FD = .ok .exit := decode_wordWithY 0 .exit
  refine ⟨hexit, exec_of_isExtension rfl, fun s s0 hsteps hword => ?_⟩
  rw [← hword] at hexit ⊢
  exact step_of_fetchWord_extension hsteps hexit rfl

/-- Settles O12: the seven listed instructions are those that `isExtension` names. -/
theorem extensionOpcodesRaiseUnsupported : Obligations.ExtensionOpcodesRaiseUnsupported := by
  intro s n x i hmem
  have hi : isExtension i = true := by
    simp only [List.mem_cons, List.not_mem_nil, or_false] at hmem
    rcases hmem with rfl | rfl | rfl | rfl | rfl | rfl | rfl <;> rfl
  exact exec_of_isExtension hi s

end Sys2Proof.Machine
end

section
/-! Proofs of the statements about the outcomes of a step and the events of the boundary (60_exceptions.md). -/

namespace Sys2Proof.Machine

/-! ### Instructions -/

/-- Settles O13, instruction by instruction: the extensions raise, LD Vx, K enters the wait, the others do not write
STATUS. -/
theorem everyInstructionGoesOn : Obligations.EveryInstructionGoesOn := by
  intro i s
  cases i
  case scd | scr | scl | exit | low | high | ldAVx => exact ⟨s.raiseUnsupported, rfl, rfl⟩
  case ldVxK => exact ⟨s.setStatus .waitKey, rfl, rfl⟩
  all_goals exact ⟨_, rfl, rfl⟩

/-! ### The next event -/

/-- The program area starts at 0x200 (70_reset_and_hazards.md R344). -/
theorem lt_programBase_iff (a : Addr) : a < programBase ↔ a.toNat < 0x200 := BitVec.lt_def

/-- Settles O57: the laws of the list and of the draw, with the bound of the contract as a number. -/
theorem stepTakesTheNextEventWhole : Obligations.StepTakesTheNextEventWhole := by
  refine ⟨step_eq, fun s e es h => ⟨State.nextEvent_of_cons h, State.dequeue_of_cons h⟩,
    fun s h => ⟨State.nextEvent_of_nil h, State.dequeue_of_nil h⟩, fun s h => ?drawn, fun s e => ?contract⟩
  case drawn => rw [State.nextEvent_of_nil h]; exact s.admits_drawnEvent
  case contract => simp only [State.admits_eq_false_iff, lt_programBase_iff]

/-! ### When a step goes on -/

/-- Fetching and running goes on, whatever the fetched word is (R300). -/
theorem State.exists_next_runInstruction (s : State) : ∃ t, s.runInstruction = .next t := by
  cases hword : decode s.fetchWord with
  | ok i =>
    obtain ⟨t, hexec, -⟩ := exec_effect i s.fetch
    exact ⟨t, (State.runInstruction_of_ok hword).trans hexec⟩
  | error e => exact ⟨_, State.runInstruction_of_error hword⟩

/-- A scheduled step goes on in every STATUS. -/
theorem State.exists_next_stepEvent (s : State) (p : Pins) : ∃ t, s.stepEvent p = .next t := by
  rcases s.stepEvent_cases p with ⟨-, heq⟩ | ⟨-, -, heq⟩ | ⟨-, -, heq⟩
  · exact ⟨_, heq⟩
  · rw [heq]
    exact (s.sample p).exists_next_runInstruction
  · exact ⟨_, heq⟩

/-- An event is taken exactly when the host's contract admits it. -/
theorem State.exists_next_handle_iff (s : State) (e : Event) :
    (∃ t, s.handle e = .next t) ↔ s.admits e = true := by
  cases e
  case step p => exact iff_of_true (s.exists_next_stepEvent p) rfl
  case load a b =>
    rcases s.loadEvent_cases a b with ⟨hopen, ha, heq⟩ | ⟨hclosed, heq⟩ | ⟨-, ha, heq⟩
    · exact iff_of_true ⟨_, heq⟩ (by simp [State.admits, hopen, ha])
    · simp [State.handle, State.admits, heq, hclosed]
    · simp [State.handle, State.admits, heq, BitVec.not_le.mpr ha]
  all_goals exact iff_of_true ⟨_, rfl⟩ rfl

/-- Taking an event from the list leaves the contract as it is. -/
theorem State.admits_dequeue (s : State) (e : Event) : s.dequeue.admits e = s.admits e := by
  cases e <;> rfl

/-- A step goes on exactly when the next event is within the contract. -/
theorem State.safeStep_iff_admits (s : State) : s.safeStep ↔ s.admits s.nextEvent = true := by
  rw [← State.admits_dequeue]
  exact s.dequeue.exists_next_handle_iff s.nextEvent

/-- Settles O14: a breach is an event the contract leaves out, and a drawn event is within it. -/
theorem stepStopsOnlyOnHostBreach : Obligations.StepStopsOnlyOnHostBreach := by
  refine ⟨fun s => ?anyEvent, fun s h => ?drawn⟩
  case anyEvent =>
    have hbreach : s.loadBreach ↔ s.admits s.nextEvent = false := (s.admits_eq_false_iff s.nextEvent).symm
    rw [State.safeStep_iff_admits, hbreach, Bool.not_eq_false]
  case drawn =>
    rw [State.safeStep_iff_admits, State.nextEvent_of_nil h]
    exact s.admits_drawnEvent

/-! ### The tick and the key wait -/

/-- Settles O51: both timers count down, and the tick writes nothing else. -/
theorem tickCountsBothTimersDown : Obligations.TickCountsBothTimersDown := fun s hnext =>
  ⟨s.dequeue.tickEvent, step_of_nextEvent hnext, countDown_toNat s.dt, countDown_toNat s.st, rfl⟩

/-- Settles O50: the tick is that of every STATUS, and a scheduled step only samples the ports as STATUS is not
Running. -/
theorem waitHoldsAndTicksRunInIt : Obligations.WaitHoldsAndTicksRunInIt := by
  refine ⟨fun s _ hnext => tickCountsBothTimersDown s hnext, fun s p hwait hnext hhalt => ?step,
    fun s x d e => rfl⟩
  case step =>
    have hidle : s.dequeue.status ≠ .running := by simp [hwait]
    exact (step_of_nextEvent hnext).trans (State.stepEvent_of_not_running hhalt hidle)

/-! ### Halt requests -/

/-- The run is not over in Running and in the key wait alone (10_state.md R40). -/
theorem Status.terminal_eq_false_iff (o : Status) : o.terminal = false ↔ o = .running ∨ o = .waitKey := by
  cases o <;> decide

/-- Settles O52: both forms of the request end in `haltRequest`, in a run that is not over. -/
theorem haltRequestEndsTheRunAndWins : Obligations.HaltRequestEndsTheRunAndWins := by
  refine ⟨fun s hnext hlive => ?alone, fun s p hnext hhalt hlive => ?withStep⟩ <;>
    rw [← Status.terminal_eq_false_iff] at hlive
  case alone =>
    exact (step_of_nextEvent hnext).trans (congrArg _ (State.haltRequest_of_live (s := s.dequeue) hlive))
  case withStep =>
    calc step s = .next (s.dequeue.sample p).haltRequest :=
          (step_of_nextEvent hnext).trans (State.stepEvent_of_haltReq hhalt)
      _ = _ := congrArg _ (State.haltRequest_of_live (s := s.dequeue.sample p) hlive)

/-! ### After the end of the run -/

/-- The terminal outcomes are those with the codes 2, 3 and 4 (R40; D26). -/
theorem Status.terminal_iff_code (o : Status) : o.terminal = true ↔ o.code = 2 ∨ o.code = 3 ∨ o.code = 4 := by
  cases o <;> decide

/-- A key event after the end of the run changes nothing, as the run is not in the key wait. -/
theorem State.keyEvent_of_terminal {s : State} (hterminal : s.status.terminal = true) (k : Key) : s.keyEvent k = s := by
  refine State.keyEvent_of_not_wait (fun hwait => ?_) k
  rw [hwait] at hterminal
  cases hterminal

/-- A load that is taken writes memory alone; any other is refused. -/
theorem State.loadEvent_stores_or_refused (s : State) (a : Addr) (b : Byte) :
    (s.loadOpen = true ∧ ∃ t, s.loadEvent a b = .next t ∧ t = { s with mem := t.mem }) ∨
      ∃ r, s.loadEvent a b = .refused r := by
  rcases s.loadEvent_cases a b with ⟨hopen, -, heq⟩ | ⟨-, heq⟩ | ⟨-, -, heq⟩
  · exact .inl ⟨hopen, _, heq, rfl⟩
  · exact .inr ⟨_, heq⟩
  · exact .inr ⟨_, heq⟩

/-- After the end of the run every event but rst keeps all but the timers, memory, and what a scheduled step
records (R307, R310). -/
theorem State.frame_handle_of_terminal {s t : State} (hterminal : s.status.terminal = true) {e : Event}
    (he : e ≠ .reset) (h : s.handle e = .next t) :
    t = { s with dt := t.dt, st := t.st, mem := t.mem, pins := t.pins, loadOpen := t.loadOpen } := by
  cases e
  case step p =>
    cases (State.stepEvent_of_terminal hterminal p).symm.trans h
    rfl
  case load a b =>
    rcases s.loadEvent_stores_or_refused a b with ⟨-, u, heq, hframe⟩ | ⟨r, heq⟩ <;> cases heq.symm.trans h
    rw [hframe]
  case reset => exact absurd rfl he
  all_goals cases h
  case tick => rfl
  case key k => rw [State.keyEvent_of_terminal hterminal]
  case halt => rw [State.haltRequest_of_terminal hterminal]

/-- Settles O53: what the outcomes write, event by event what follows them, and the frame of all events but rst, of
which STATUS is a part. -/
theorem terminalStatusIsKeptUntilReset : Obligations.TerminalStatusIsKeptUntilReset := by
  refine ⟨fun i s hi => exec_of_isExtension hi s, fun s => s.raise_eq .invalid, fun s => State.haltRequest_of_live,
    fun s => s.status.terminal_iff_code, fun s hterminal => ?events, fun s t hterminal hnext h => ?frame⟩
  case events =>
    have hdequeue : s.dequeue.status.terminal = true := hterminal
    refine ⟨fun p hnext => ?step, fun k hnext => ?key, fun hnext => ?halt, tickCountsBothTimersDown s,
      fun a b hnext => ?load⟩ <;> rw [step_of_nextEvent hnext]
    case step => exact State.stepEvent_of_terminal hdequeue p
    case key => exact congrArg _ (State.keyEvent_of_terminal hdequeue k)
    case halt => exact congrArg _ (State.haltRequest_of_terminal hdequeue)
    case load => exact s.dequeue.loadEvent_stores_or_refused a b
  case frame =>
    have hframe := State.frame_handle_of_terminal (s := s.dequeue) hterminal hnext h
    have hstatus : t.status = s.dequeue.status := by rw [hframe]
    exact ⟨hstatus, hframe⟩

/-! ### The input ports -/

/-- An instruction that reads no port does the same whatever is on the ports, which it leaves alone (R314). -/
theorem exec_withPins {i : Instr} (hskp : ∀ x, i ≠ .skpVx x) (hsknp : ∀ x, i ≠ .sknpVx x)
    (hrnd : ∀ x kk, i ≠ .rndVxKk x kk) (s : State) (p : Pins) :
    ∃ t, exec i s = .next t ∧ exec i { s with pins := p } = .next { t with pins := p } := by
  cases i
  case skpVx x => exact absurd rfl (hskp x)
  case sknpVx x => exact absurd rfl (hsknp x)
  case rndVxKk x kk => exact absurd rfl (hrnd x kk)
  all_goals exact ⟨_, rfl, rfl⟩

/-- Settles O54: with the key lines, or the random byte, the same, the instruction that samples them reads the same
value; a key event writes a register and STATUS in the key wait, and nothing at any other time. -/
theorem inputsMatterOnlyWhereTheyAreSampled : Obligations.InputsMatterOnlyWhereTheyAreSampled := by
  refine ⟨fun i s p hskp hsknp hrnd => exec_withPins hskp hsknp hrnd s p, fun s p x hkeys => ?keyLines,
    fun s p x kk hrnd => ?randomByte, fun s k hwait hnext => ?otherTimes, fun s k hwait hnext => ?inTheWait⟩
  case keyLines =>
    obtain ⟨keys, rnd, haltReq⟩ := p
    subst hkeys
    exact ⟨_, _, rfl, rfl, rfl, rfl⟩
  case randomByte =>
    obtain ⟨keys, rnd, haltReq⟩ := p
    subst hrnd
    exact ⟨_, rfl, rfl⟩
  case otherTimes =>
    exact (step_of_nextEvent hnext).trans (congrArg _ (State.keyEvent_of_not_wait (s := s.dequeue) hwait k))
  case inTheWait =>
    exact ⟨_, (step_of_nextEvent hnext).trans (congrArg _ (State.keyEvent_of_wait (s := s.dequeue) hwait k)), rfl⟩

end Sys2Proof.Machine
end

section
/-! Proofs of the statements about the events rst and load (70_reset_and_hazards.md). -/

namespace Sys2Proof.Machine

/-- Settles O17: the event sets every field but the six that the statement leaves open. -/
theorem resetEventGivesTheResetState : Obligations.ResetEventGivesTheResetState := fun s hnext =>
  ⟨s.dequeue.resetEvent, step_of_nextEvent hnext, rfl⟩

/-! ### The load port -/

/-- A load after the run has started (R344; log 8). -/
theorem State.loadEvent_of_closed {s : State} (hclosed : s.loadOpen = false) (a : Addr) (b : Byte) :
    s.loadEvent a b = .refused .loadDuringRun := by
  simp [State.loadEvent, hclosed]

/-- A load below the program area (R344; log 8). -/
theorem State.loadEvent_of_below {s : State} {a : Addr} (hopen : s.loadOpen = true) (ha : a < programBase)
    (b : Byte) : s.loadEvent a b = .refused .loadOutsideImage := by
  simp [State.loadEvent, hopen, ha]

/-- No instruction uses the load port. -/
theorem Effect.loadOpen_eq {i : Instr} {s t : State} (h : Effect s i t) : t.loadOpen = s.loadOpen := by
  cases h <;> rfl

/-- Fetching and running one instruction leaves the load port as it is. -/
theorem State.loadOpen_of_runInstruction {s t : State} (h : s.runInstruction = .next t) :
    t.loadOpen = s.loadOpen := by
  cases hword : decode s.fetchWord with
  | ok i =>
    rw [State.runInstruction_of_ok hword] at h
    exact (effect_of_exec h).loadOpen_eq
  | error e =>
    cases (State.runInstruction_of_error hword).symm.trans h
    rfl

/-- A halt request leaves the load port as it is. -/
theorem State.loadOpen_haltRequest (s : State) : s.haltRequest.loadOpen = s.loadOpen := by
  unfold State.haltRequest
  split <;> rfl

/-- A scheduled step closes the load port, whatever else it does. -/
theorem State.loadOpen_of_stepEvent {s t : State} {p : Pins} (h : s.stepEvent p = .next t) : t.loadOpen = false := by
  rcases s.stepEvent_cases p with ⟨-, heq⟩ | ⟨-, -, heq⟩ | ⟨-, -, heq⟩ <;> rw [heq] at h
  · cases h
    exact (s.sample p).loadOpen_haltRequest
  · exact State.loadOpen_of_runInstruction h
  · cases h
    rfl

/-- Settles O55: the three outcomes of a load, and the scheduled step that closes the port. -/
theorem loadPortFillsMemoryBeforeTheRun : Obligations.LoadPortFillsMemoryBeforeTheRun := by
  refine ⟨fun s a b hnext hopen ha => ?stored, fun s a b hnext hclosed => ?late, fun s a b hnext hopen ha => ?below,
    rfl, fun s t p hnext h => ?closes⟩
  case stored =>
    have hbase : programBase ≤ a := BitVec.le_def.mpr ha
    exact ⟨_, (step_of_nextEvent hnext).trans (State.loadEvent_of_admitted (s := s.dequeue) hopen hbase b),
      fun c => Memory.read_write s.mem a c b, rfl⟩
  case late => exact (step_of_nextEvent hnext).trans (State.loadEvent_of_closed (s := s.dequeue) hclosed a b)
  case below =>
    have hbase : a < programBase := (lt_programBase_iff a).mpr ha
    exact (step_of_nextEvent hnext).trans (State.loadEvent_of_below (s := s.dequeue) hopen hbase b)
  case closes => exact State.loadOpen_of_stepEvent ((step_of_nextEvent hnext).symm.trans h)

end Sys2Proof.Machine
end
